-- ==== Sys2Proof/Word.lean ====
section
/-! DEFINITION. The two widths of the machine (00_scope.md R7, R10). -/

namespace Sys2Proof

/-- A grid cell, `CELL_BITS` = 8 (00_scope.md R7): a u8. -/
abbrev Byte := BitVec 8

/-- A stack entry, `XLEN` = 32 (00_scope.md R7): the bits of an i32, whose number is `toInt`. -/
abbrev Word := BitVec 32

end Sys2Proof
end

