-- ==== Sys2Proof/Config.lean ====
section
/-! DEFINITION. What is fixed for one machine: the parameters of 00_scope.md R7, and the one value the spec leaves free,
the random draw of `?` (41_control_flow.md R126). -/

namespace Sys2Proof

/-- `PUT_VALUE_POLICY`: what `p` does with a value outside 0..255 (00_scope.md R7, 92_eei_decisions.md D7). -/
inductive PutPolicy where
  | truncate
  | fault
  deriving DecidableEq, Repr

/-- The implementation parameters of 00_scope.md R7. `clearEdges` is the model's own (DESIGN CHOICE, log 7): for how many
clock edges after a reset `rst_busy` stays 1 (70_reset_and_hazards.md R260). -/
structure Params where
  width : Nat
  height : Nat
  blank : Byte
  stackDepth : Nat
  putPolicy : PutPolicy
  clearEdges : Nat
  deriving DecidableEq, Repr

/-- The defaults the spec chooses (00_scope.md R7). -/
def Params.default : Params :=
  { width := 80, height := 25, blank := 0x20, stackDepth := 1024, putPolicy := .truncate, clearEdges := 0 }

/-- `ceil(log2 n)`, 0 for n = 0 and n = 1. -/
def ceilLog2 (n : Nat) : Nat :=
  if n ≤ 1 then 0 else Nat.log2 (n - 1) + 1

/-- `ROW_BITS` (00_scope.md R7). -/
def Params.rowBits (p : Params) : Nat := max 1 (ceilLog2 p.height)

/-- `COL_BITS` (00_scope.md R7). -/
def Params.colBits (p : Params) : Nat := max 1 (ceilLog2 p.width)

/-- The width of the depth register and of `fdepth` (10_state.md R22, R31). -/
def Params.depthBits (p : Params) : Nat := ceilLog2 (p.stackDepth + 1)

/-- The random draw of `?` where the host's schedule gives none: a FREE value for each number of draws made before, any of
the four each time (41_control_flow.md R126, 93_implementation_defined.md I2; DESIGN CHOICE, log 5). It has no body, so nothing can be
proved of its value. -/
opaque Config.rndDraw : Nat → BitVec 2

end Sys2Proof
end

