-- ==== Sys2Proof/Syntax.lean ====
section
/-! DEFINITION. The instruction set: one constructor for each of the 37 rows of opcode_table.json, in the table's order
(30_encoding.md R81). An instruction is one whole byte with no fields (R80), so no constructor has an argument. -/

namespace Sys2Proof

inductive Instr where
  /-- NOP, space, byte 0x20 (41_control_flow.md R129). -/
  | nop
  /-- NOT, `!`, byte 0x21 (44_arithmetic.md R187). -/
  | not
  /-- STR, `"`, byte 0x22 (42_literals.md R150). -/
  | str
  /-- BRIDGE, `#`, byte 0x23 (41_control_flow.md R128). -/
  | bridge
  /-- DROP, `$`, byte 0x24 (45_stack.md R202). -/
  | drop
  /-- MOD, `%`, byte 0x25 (44_arithmetic.md R185). -/
  | mod
  /-- INNUM, `&`, byte 0x26 (43_io.md R163). -/
  | innum
  /-- MUL, `*`, byte 0x2A (44_arithmetic.md R182). -/
  | mul
  /-- ADD, `+`, byte 0x2B (44_arithmetic.md R180). -/
  | add
  /-- OUTCHR, `,`, byte 0x2C (43_io.md R166). -/
  | outchr
  /-- SUB, `-`, byte 0x2D (44_arithmetic.md R181). -/
  | sub
  /-- OUTNUM, `.`, byte 0x2E (43_io.md R165). -/
  | outnum
  /-- DIV, `/`, byte 0x2F (44_arithmetic.md R183). -/
  | div
  /-- PUSH0, `0`, byte 0x30 (42_literals.md R140). -/
  | push0
  /-- PUSH1, `1`, byte 0x31 (42_literals.md R141). -/
  | push1
  /-- PUSH2, `2`, byte 0x32 (42_literals.md R142). -/
  | push2
  /-- PUSH3, `3`, byte 0x33 (42_literals.md R143). -/
  | push3
  /-- PUSH4, `4`, byte 0x34 (42_literals.md R144). -/
  | push4
  /-- PUSH5, `5`, byte 0x35 (42_literals.md R145). -/
  | push5
  /-- PUSH6, `6`, byte 0x36 (42_literals.md R146). -/
  | push6
  /-- PUSH7, `7`, byte 0x37 (42_literals.md R147). -/
  | push7
  /-- PUSH8, `8`, byte 0x38 (42_literals.md R148). -/
  | push8
  /-- PUSH9, `9`, byte 0x39 (42_literals.md R149). -/
  | push9
  /-- DUP, `:`, byte 0x3A (45_stack.md R200). -/
  | dup
  /-- LEFT, `<`, byte 0x3C (41_control_flow.md R123). -/
  | left
  /-- RIGHT, `>`, byte 0x3E (41_control_flow.md R122). -/
  | right
  /-- RAND, `?`, byte 0x3F (41_control_flow.md R126). -/
  | rand
  /-- HALT, `@`, byte 0x40 (41_control_flow.md R127). -/
  | halt
  /-- SWAP, `\`, byte 0x5C (45_stack.md R201). -/
  | swap
  /-- UP, `^`, byte 0x5E (41_control_flow.md R120). -/
  | up
  /-- HIF, `_`, byte 0x5F (41_control_flow.md R124). -/
  | hif
  /-- GT, the backquote, byte 0x60 (44_arithmetic.md R186). -/
  | gt
  /-- GET, `g`, byte 0x67 (46_grid_access.md R210). -/
  | get
  /-- PUT, `p`, byte 0x70 (46_grid_access.md R211). -/
  | put
  /-- DOWN, `v`, byte 0x76 (41_control_flow.md R121). -/
  | down
  /-- VIF, `|`, byte 0x7C (41_control_flow.md R125). -/
  | vif
  /-- INCHR, `~`, byte 0x7E (43_io.md R164). -/
  | inchr
  deriving DecidableEq, Repr

end Sys2Proof
end

