-- ==== Sys2Proof/WellFormed.lean ====
section
/-! DEFINITION. What the model asks of its inputs as terms: an instruction has no fields that could be ill formed
(30_encoding.md R80), and the parameters keep the bounds of 00_scope.md R7. -/

namespace Sys2Proof

/-- Every instruction is well formed: no constructor has an operand (30_encoding.md R80, R83). -/
def Instr.wf : Instr → Bool := fun _ => true

/-- 1 <= W <= 2^31-1 (00_scope.md R7). -/
def Params.widthOk (p : Params) : Bool := decide (1 ≤ p.width) && decide (p.width ≤ 2 ^ 31 - 1)

/-- 1 <= H <= 2^31-1 (00_scope.md R7). -/
def Params.heightOk (p : Params) : Bool := decide (1 ≤ p.height) && decide (p.height ≤ 2 ^ 31 - 1)

/-- STACK_DEPTH >= 3 (00_scope.md R7). -/
def Params.stackDepthOk (p : Params) : Bool := decide (3 ≤ p.stackDepth)

/-- The parameters keep the bounds of 00_scope.md R7; `BLANK` may be any byte and the policy either. -/
def Params.wf (p : Params) : Bool := p.widthOk && p.heightOk && p.stackDepthOk

end Sys2Proof
end

