-- ==== Sys2Proof/Decode.lean ====
section
/-! DEFINITION. The decoder, total on every byte, and the encoder beside it, both written from the opcode map of
30_encoding.md R81 (the byte values are ASCII codes, 93_implementation_defined.md G1; PRESUMED, log 14). -/

namespace Sys2Proof

/-- One row of the opcode map: the byte that selects the instruction. The mask is 0xFF in every row (30_encoding.md R80), so
a row matches the whole byte. -/
structure OpcodeRow where
  byte : Byte
  instr : Instr
  deriving DecidableEq, Repr

/-- Bytes 0x20 to 0x2F, without 0x27 to 0x29 (30_encoding.md R81, R88). -/
def opcodesPunctuation : List OpcodeRow :=
  [ ⟨0x20, .nop⟩,
    ⟨0x21, .not⟩,
    ⟨0x22, .str⟩,
    ⟨0x23, .bridge⟩,
    ⟨0x24, .drop⟩,
    ⟨0x25, .mod⟩,
    ⟨0x26, .innum⟩,
    ⟨0x2A, .mul⟩,
    ⟨0x2B, .add⟩,
    ⟨0x2C, .outchr⟩,
    ⟨0x2D, .sub⟩,
    ⟨0x2E, .outnum⟩,
    ⟨0x2F, .div⟩ ]

/-- Bytes 0x30 to 0x3A (30_encoding.md R81, R88). -/
def opcodesDigits : List OpcodeRow :=
  [ ⟨0x30, .push0⟩,
    ⟨0x31, .push1⟩,
    ⟨0x32, .push2⟩,
    ⟨0x33, .push3⟩,
    ⟨0x34, .push4⟩,
    ⟨0x35, .push5⟩,
    ⟨0x36, .push6⟩,
    ⟨0x37, .push7⟩,
    ⟨0x38, .push8⟩,
    ⟨0x39, .push9⟩,
    ⟨0x3A, .dup⟩ ]

/-- Bytes 0x3C to 0x60 (30_encoding.md R81, R88). -/
def opcodesMiddle : List OpcodeRow :=
  [ ⟨0x3C, .left⟩,
    ⟨0x3E, .right⟩,
    ⟨0x3F, .rand⟩,
    ⟨0x40, .halt⟩,
    ⟨0x5C, .swap⟩,
    ⟨0x5E, .up⟩,
    ⟨0x5F, .hif⟩,
    ⟨0x60, .gt⟩ ]

/-- Bytes 0x67 to 0x7E (30_encoding.md R81, R88). -/
def opcodesLetters : List OpcodeRow :=
  [ ⟨0x67, .get⟩,
    ⟨0x70, .put⟩,
    ⟨0x76, .down⟩,
    ⟨0x7C, .vif⟩,
    ⟨0x7E, .inchr⟩ ]

/-- The opcode map, 37 rows (30_encoding.md R81). -/
def opcodeTable : List OpcodeRow :=
  opcodesPunctuation ++ opcodesDigits ++ opcodesMiddle ++ opcodesLetters

/-- The byte a table row stands for, as an instruction; `none` on the 219 illegal bytes (30_encoding.md R85). String mode
does not come here: with `sm = 1` no byte is decoded (R84). -/
def decode (b : Byte) : Option Instr :=
  (opcodeTable.find? fun row => row.byte == b).map fun row => row.instr

/-- The byte of an instruction (30_encoding.md R81). -/
def encode : Instr → Byte
  | .nop => 0x20
  | .not => 0x21
  | .str => 0x22
  | .bridge => 0x23
  | .drop => 0x24
  | .mod => 0x25
  | .innum => 0x26
  | .mul => 0x2A
  | .add => 0x2B
  | .outchr => 0x2C
  | .sub => 0x2D
  | .outnum => 0x2E
  | .div => 0x2F
  | .push0 => 0x30
  | .push1 => 0x31
  | .push2 => 0x32
  | .push3 => 0x33
  | .push4 => 0x34
  | .push5 => 0x35
  | .push6 => 0x36
  | .push7 => 0x37
  | .push8 => 0x38
  | .push9 => 0x39
  | .dup => 0x3A
  | .left => 0x3C
  | .right => 0x3E
  | .rand => 0x3F
  | .halt => 0x40
  | .swap => 0x5C
  | .up => 0x5E
  | .hif => 0x5F
  | .gt => 0x60
  | .get => 0x67
  | .put => 0x70
  | .down => 0x76
  | .vif => 0x7C
  | .inchr => 0x7E

/-- The decoder on a word numbered as opcode_table.json numbers it: an instruction is the one byte in bits 7..0, and there
is no later word (30_encoding.md R80). -/
def decodeTableWord (nbits w : Nat) : Option Instr :=
  decode (BitVec.ofNat 8 (w % 2 ^ nbits))

end Sys2Proof
end

