-- ==== Sys2Proof/Machine/State.lean ====
section
/-! DEFINITION. The state of the core (10_state.md R20), the hidden I/O request (R32), the host's side of the wires (R33,
R36, R37) as plain data, the reasons a step can stop, and the state after reset (70_reset_and_hazards.md R261). -/

namespace Sys2Proof.Machine

/-- A grid coordinate, row then column (20_memory.md R60; natural numbers, DESIGN CHOICE, log 15). Row 0 is the top row, column 0 the leftmost (00_scope.md R18). -/
structure Coord where
  row : Nat
  col : Nat
  deriving DecidableEq, Repr

/-- The direction register's four values (10_state.md R25). -/
inductive Dir where
  | right
  | down
  | left
  | up
  deriving DecidableEq, Repr

/-- The run state (10_state.md R28). -/
inductive RunState where
  | idle
  | run
  | halted
  | faulted
  deriving DecidableEq, Repr

/-- The fault codes 0 to 7 (60_exceptions.md R230). These are faults of the HARDWARE: each leads to a next state. -/
inductive FaultCode where
  | none
  | stackUnderflow
  | outOfBounds
  | parseError
  | unknownInstruction
  | divisionByZero
  | stackOverflow
  | putValueRange
  deriving DecidableEq, Repr

/-- The fault record `fcode`, `fop`, `fneed`, `fdepth` (10_state.md R31). -/
structure FaultRecord where
  code : FaultCode
  op : Byte
  need : BitVec 2
  depth : Nat
  deriving DecidableEq, Repr

/-- The record that says no fault: all fields 0 (10_state.md R31). -/
def FaultRecord.clear : FaultRecord := { code := .none, op := 0, need := 0, depth := 0 }

/-- The two kinds of a port transfer, INT and CHAR (43_io.md R160, R161). -/
inductive IoKind where
  | int
  | char
  deriving DecidableEq, Repr

/-- A request to the I/O Port: read-int, read-char, write-int, write-char, a write with its word (10_state.md R32). -/
inductive Request where
  | read (kind : IoKind)
  | write (kind : IoKind) (word : Word)
  deriving DecidableEq, Repr

/-- An answer of the port, as the wires carry it: `in_err` and `in_data` (43_io.md R160). -/
structure Answer where
  err : Bool
  data : Word
  deriving DecidableEq, Repr

/-- A word transferred on the output port: `out_kind` and `out_data` (43_io.md R161). -/
structure OutWord where
  kind : IoKind
  word : Word
  deriving DecidableEq, Repr

/-- The levels of the core's input wires at one rising edge of `clk` (10_state.md R36). -/
structure Pins where
  rst : Bool
  start : Bool
  ldWe : Bool
  ldRow : Nat
  ldCol : Nat
  ldData : Byte
  inValid : Bool
  inErr : Bool
  inData : Word
  outReady : Bool
  rnd : BitVec 2
  deriving DecidableEq, Repr

/-- The host as plain data (DESIGN CHOICE, log 3; these are inputs and no state of the core, 10_state.md R33). `edges` are
the wires' levels at the coming edges, the next one first. Where no edge is scheduled the standing host drives the wires:
it asserts no reset, load or start, answers the requests with `answers` in order, drives `out_ready` with `outReady`, and
presents `draws` to `?` in order and free draws after them, counted by `drawn`. -/
structure Env where
  edges : List Pins
  answers : List Answer
  outReady : Bool
  draws : List (BitVec 2)
  drawn : Nat
  deriving DecidableEq, Repr

/-- A host that schedules nothing, gives no answer and accepts every output word (DESIGN CHOICE, log 4). -/
def Env.initial : Env := { edges := [], answers := [], outReady := true, draws := [], drawn := 0 }

/-- The state of the machine. The first block is the architectural state of 10_state.md R20, the second the hidden state
of R32 and `rst_busy`, the third what a run has exchanged with the port (40_dispatch.md R110), the last the host's side. -/
structure State where
  /-- The parameters, which no step changes (00_scope.md R7; DESIGN CHOICE, log 2). -/
  par : Params
  /-- `Grid`, as cells by key row * W + col; an unlisted cell holds `BLANK` (10_state.md R21; DESIGN CHOICE, log 11). -/
  grid : List Host.Cell
  /-- The operand stack `S`, `S.top` FIRST; its length is the depth register (10_state.md R22; DESIGN CHOICE, log 10). -/
  stack : List Word
  /-- The program counter (10_state.md R24). -/
  pc : Coord
  /-- The direction register (10_state.md R25). -/
  dir : Dir
  /-- The string-mode flag (10_state.md R27). -/
  sm : Bool
  /-- The run state (10_state.md R28). -/
  run : RunState
  /-- The fault record (10_state.md R31). -/
  fault : FaultRecord
  /-- The pending I/O request, if one waits (10_state.md R32). -/
  pending : Option Request
  /-- For how many coming edges `rst_busy` is 1 (70_reset_and_hazards.md R260; DESIGN CHOICE, log 7). -/
  busy : Nat
  /-- The words transferred on the output port in this run, oldest first (40_dispatch.md R110; DESIGN CHOICE, log 9). -/
  out : List OutWord
  /-- The input answers consumed in this run, oldest first (40_dispatch.md R110; DESIGN CHOICE, log 9). -/
  took : List Answer
  /-- The host's side of the wires (DESIGN CHOICE, log 3). -/
  env : Env
  deriving DecidableEq, Repr

/-- The depth register (10_state.md R22). -/
def State.depth (s : State) : Nat := s.stack.length

/-- The core right after reset, for any parameters and host (70_reset_and_hazards.md R261). -/
def State.resetWith (p : Params) (e : Env) : State :=
  { par := p, grid := [], stack := [], pc := { row := 0, col := p.width - 1 }, dir := .right, sm := false, run := .idle,
    fault := FaultRecord.clear, pending := none, busy := p.clearEdges, out := [], took := [], env := e }

/-- The core right after reset with the spec's default parameters (00_scope.md R7), and a host that does nothing yet. -/
def State.reset : State := State.resetWith Params.default Env.initial

/-- Why a step stops the MODEL (the hardware's own faults are next states, `FaultCode`). -/
inductive Fault where
  /-- Raised by instruction fetch when the pc lies outside the grid: the spec gives no such cell (20_memory.md R61). The pc
  is always valid (10_state.md R24), so no reachable state raises it. Safe: the model stops. Log 12. -/
  | noSuchCell (at_ : Coord)
  deriving DecidableEq, Repr

/-- Why a step has no meaning. -/
inductive Refusal where
  /-- Raised by an arm of `exec` whose instruction has no meaning yet; no arm does. Safe: the model stops. -/
  | notModelled (mnemonic : String)
  deriving DecidableEq, Repr

/-- What a step of the core answers. -/
abbrev Result := Host.Outcome State Fault Refusal

end Sys2Proof.Machine
end

