-- ==== Sys2Proof/Machine/Ports.lean ====
section
/-! DEFINITION. The wires (10_state.md R36): what the host drives at the coming clock edge, and what the core shows of its
registers. The wires of the I/O Port are in Machine/Wires.lean. -/

namespace Sys2Proof.Machine

/-- Wires on which nothing is asserted. -/
def Pins.quiet : Pins :=
  { rst := false, start := false, ldWe := false, ldRow := 0, ldCol := 0, ldData := 0, inValid := false, inErr := false,
    inData := 0, outReady := false, rnd := 0 }

/-- The draw the standing host presents: the next one given, or a free one (41_control_flow.md R126; DESIGN CHOICE, log 5). -/
def Env.draw (e : Env) : BitVec 2 :=
  match e.draws with
  | d :: _ => d
  | [] => Config.rndDraw e.drawn

/-- The standing host's wires: no reset, load or start; its next answer, if it has one, is valid (DESIGN CHOICE, log 3). -/
def Env.standing (e : Env) : Pins :=
  match e.answers with
  | a :: _ =>
    { Pins.quiet with
      inValid := true, inErr := a.err, inData := a.data, outReady := e.outReady, rnd := e.draw }
  | [] => { Pins.quiet with outReady := e.outReady, rnd := e.draw }

/-- The wires at the coming edge: the scheduled ones, else the standing host's (DESIGN CHOICE, log 3). -/
def Env.pins (e : Env) : Pins :=
  match e.edges with
  | p :: _ => p
  | [] => e.standing

/-- The wires at the coming edge. -/
def State.pins (s : State) : Pins := s.env.pins

/-- The host after the core has taken an answer: the standing host goes on to its next one (43_io.md R162: no answer serves
two requests; DESIGN CHOICE, log 19). -/
def Env.afterAnswer (e : Env) : Env :=
  match e.edges with
  | _ :: _ => e
  | [] => { e with answers := e.answers.tail }

/-- The host after `?` has sampled `rnd`: the standing host goes on to its next draw, a free draw is never used twice. -/
def Env.afterDraw (e : Env) : Env :=
  match e.edges, e.draws with
  | _ :: _, _ => e
  | [], _ :: ds => { e with draws := ds }
  | [], [] => { e with drawn := e.drawn + 1 }

/-- The host after the edge has passed. -/
def Env.afterEdge (e : Env) : Env := { e with edges := e.edges.tail }

/-- The 2-bit encoding of a direction (10_state.md R25). -/
def Dir.code : Dir → BitVec 2
  | .right => 0b00
  | .down => 0b01
  | .left => 0b10
  | .up => 0b11

/-- `DirOf`: the direction a random draw stands for (41_control_flow.md R126). -/
def Dir.ofCode (b : BitVec 2) : Dir :=
  if b = 0b00 then .right
  else if b = 0b01 then .down
  else if b = 0b10 then .left
  else .up

/-- The 2-bit encoding of the run state (10_state.md R28). -/
def RunState.code : RunState → BitVec 2
  | .idle => 0b00
  | .run => 0b01
  | .halted => 0b10
  | .faulted => 0b11

/-- The 3-bit fault code (60_exceptions.md R230). -/
def FaultCode.code : FaultCode → BitVec 3
  | .none => 0
  | .stackUnderflow => 1
  | .outOfBounds => 2
  | .parseError => 3
  | .unknownInstruction => 4
  | .divisionByZero => 5
  | .stackOverflow => 6
  | .putValueRange => 7

/-- The kind wire: 0 for INT, 1 for CHAR (43_io.md R160, R161). -/
def IoKind.code : IoKind → BitVec 1
  | .int => 0
  | .char => 1

/-- `rst_busy` (70_reset_and_hazards.md R260). -/
def State.rstBusy (s : State) : Bool := decide (s.busy ≠ 0)

/-- `run_state` (10_state.md R30). -/
def State.runStatePort (s : State) : BitVec 2 := s.run.code

/-- `fault_code` (10_state.md R30, R31). -/
def State.faultCodePort (s : State) : BitVec 3 := s.fault.code.code

/-- `fault_op` (10_state.md R30, R31). -/
def State.faultOpPort (s : State) : Byte := s.fault.op

/-- `fault_need` (10_state.md R30, R31). -/
def State.faultNeedPort (s : State) : BitVec 2 := s.fault.need

/-- `fault_depth`, as wide as the depth register (10_state.md R30, R31). -/
def State.faultDepthPort (s : State) : BitVec s.par.depthBits := BitVec.ofNat _ s.fault.depth

/-- `pc_row`, ROW_BITS wide (10_state.md R36). -/
def State.pcRowPort (s : State) : BitVec s.par.rowBits := BitVec.ofNat _ s.pc.row

/-- `pc_col`, COL_BITS wide (10_state.md R36). -/
def State.pcColPort (s : State) : BitVec s.par.colBits := BitVec.ofNat _ s.pc.col

/-- The depth register as its bits (10_state.md R22). -/
def State.depthPort (s : State) : BitVec s.par.depthBits := BitVec.ofNat _ s.depth

/-- `STK[i]`, i counted from the bottom; no value at or above the depth (10_state.md R22, R23). The debug port that reads
the stack shows these (R35; DESIGN CHOICE, log 22). -/
def State.stk (s : State) (i : Nat) : Option Word := s.stack.reverse[i]?

end Sys2Proof.Machine
end

