-- ==== Sys2Proof/Machine/Ops.lean ====
section
/-! DEFINITION. The named operations over the grid, the stack and the pc; raising a fault, written once from
60_exceptions.md R240; and beside it reset, the only way out of a fault (R241), the load port and `start`. -/

namespace Sys2Proof.Machine

/-! ### The grid -/

/-- `c` is a valid coordinate: 0 <= r < H and 0 <= c < W (20_memory.md R61). -/
abbrev Coord.valid (p : Params) (c : Coord) : Prop := c.row < p.height ∧ c.col < p.width

/-- The key under which the grid's list holds a cell (DESIGN CHOICE, log 11). -/
def Coord.key (p : Params) (c : Coord) : Nat := c.row * p.width + c.col

/-- The grid as a list of cells. -/
abbrev Memory := List Host.Cell

/-- The cell at a key; an unlisted cell holds `blank` (10_state.md R21). -/
def Memory.read (blank : Byte) : Memory → Nat → Byte
  | [], _ => blank
  | (k, b) :: m, a => if k = a then b else Memory.read blank m a

/-- One cell replaced, and the list left in its canonical form: keys rising, no cell that holds `blank`. -/
def Memory.write (blank : Byte) : Memory → Nat → Byte → Memory
  | [], a, v => if v = blank then [] else [(a, v)]
  | (k, b) :: m, a, v =>
    if a < k then if v = blank then (k, b) :: m else (a, v) :: (k, b) :: m
    else if a = k then if v = blank then m else (a, v) :: m
    else (k, b) :: Memory.write blank m a v

/-- The canonical form: keys strictly rising, every listed cell inside the grid and different from `BLANK`. -/
abbrev Memory.wf (p : Params) (m : Memory) : Prop :=
  m.Pairwise (fun x y => x.1 < y.1) ∧ ∀ x ∈ m, x.2 ≠ p.blank ∧ x.1 < p.height * p.width

/-- `MemRead((r, c), 1)` (20_memory.md R62). -/
def State.readCell (s : State) (c : Coord) : Byte := Memory.read s.par.blank s.grid (c.key s.par)

/-- `MemWrite((r, c), 1, v)` (20_memory.md R63). -/
def State.writeCell (s : State) (c : Coord) (v : Byte) : State :=
  { s with grid := Memory.write s.par.blank s.grid (c.key s.par) v }

/-- Instruction fetch at the pc (40_dispatch.md R101); nothing where the pc is no coordinate of the grid (DESIGN CHOICE, log 12). -/
def State.fetch (s : State) : Option Byte := if s.pc.valid s.par then some (s.readCell s.pc) else none

/-! ### The pc -/

/-- `Advance(pc, dir)`: one cell in the direction, wrapping modulo H and W (40_dispatch.md R100). -/
def advance (p : Params) (d : Dir) (c : Coord) : Coord :=
  match d with
  | .right => { row := c.row, col := if c.col = p.width - 1 then 0 else c.col + 1 }
  | .left => { row := c.row, col := if c.col = 0 then p.width - 1 else c.col - 1 }
  | .down => { row := if c.row = p.height - 1 then 0 else c.row + 1, col := c.col }
  | .up => { row := if c.row = 0 then p.height - 1 else c.row - 1, col := c.col }

/-! ### Single writes of the state -/

/-- `pc <- c`. -/
def State.withPc (s : State) (c : Coord) : State := { s with pc := c }

/-- `pc <- Advance(pc, dir)` (40_dispatch.md R101, 41_control_flow.md R128). -/
def State.advanced (s : State) : State := s.withPc (advance s.par s.dir s.pc)

/-- `dir <- d`. -/
def State.withDir (s : State) (d : Dir) : State := { s with dir := d }

/-- The run state replaced (10_state.md R29). -/
def State.withRun (s : State) (r : RunState) : State := { s with run := r }

/-- The stack replaced: what is left after the pops, with the pushes on top (10_state.md R22). -/
def State.withStack (s : State) (st : List Word) : State := { s with stack := st }

/-- `Push(v)` without its room check (10_state.md R22). -/
def State.push (s : State) (v : Word) : State := s.withStack (v :: s.stack)

/-- The pending request replaced (10_state.md R32). -/
def State.withPending (s : State) (q : Option Request) : State := { s with pending := q }

/-- The host's side replaced. -/
def State.withEnv (s : State) (e : Env) : State := { s with env := e }

/-- An input answer is taken: it counts as consumed in this run and no request waits any more (43_io.md R160). -/
def State.tookAnswer (s : State) (a : Answer) : State :=
  { s with pending := none, took := s.took ++ [a], env := s.env.afterAnswer }

/-- An output word is transferred: it is emitted in this run and no word is offered any more (43_io.md R161). -/
def State.sentWord (s : State) (w : OutWord) : State := { s with pending := none, out := s.out ++ [w] }

/-- The clock edge has passed. -/
def State.afterEdge (s : State) : State := s.withEnv s.env.afterEdge

/-! ### Faults -/

/-- The state a raised fault leaves (60_exceptions.md R240, 10_state.md R31): the record is written, `run` is FAULTED, and
the pc, the stack, the grid, `dir` and `sm` stay as they were before the instruction. -/
def State.faulted (s : State) (code : FaultCode) (op : Byte) (need : BitVec 2) : State :=
  { s with run := .faulted, fault := { code := code, op := op, need := need, depth := s.depth } }

/-- `raise <Fault>(info)` (00_scope.md R12): the ONE way a fault is taken. -/
def raise (code : FaultCode) (op : Byte) (need : BitVec 2) (s : State) : Result := .next (s.faulted code op need)

/-- `rst` at a rising edge (70_reset_and_hazards.md R260): every element to its reset value, a pending transfer withdrawn.
There is no return from a fault; this alone leaves FAULTED (60_exceptions.md R241). The host's side of the wires is not
the core's and stays. The grid is BLANK from this edge on, also while `rst_busy` is still 1 (DESIGN CHOICE, log 7). -/
def State.rst (s : State) : State := State.resetWith s.par s.env

/-! ### The load port and start -/

/-- One load-port write in IDLE: out-of-range coordinates are ignored (70_reset_and_hazards.md R263). -/
def State.loadCell (s : State) (c : Coord) (v : Byte) : State := if c.valid s.par then s.writeCell c v else s

/-- The load port at an edge in IDLE (70_reset_and_hazards.md R263). -/
def State.loadEdge (s : State) : State :=
  if s.pins.ldWe then s.loadCell { row := s.pins.ldRow, col := s.pins.ldCol } s.pins.ldData else s

/-- `start` at an edge in IDLE (70_reset_and_hazards.md R266). -/
def State.startEdge (s : State) : State := if s.pins.start then s.withRun .run else s

/-- An edge in IDLE: while `rst_busy` is 1 the load port and `start` are ignored (70_reset_and_hazards.md R260); else both
act at this edge (DEDUCED, log 8). -/
def State.idleEdge (s : State) : State :=
  if s.busy ≠ 0 then { s with busy := s.busy - 1 } else s.loadEdge.startEdge

end Sys2Proof.Machine
end

