-- ==== Sys2Proof/Machine/Operands.lean ====
section
/-! DEFINITION. Operand forms (30_encoding.md R82, R83), the checks before a pop or a push (00_scope.md R13), and the
arithmetic between the widths (00_scope.md R10). -/

namespace Sys2Proof.Machine

/-! ### Numbers (00_scope.md R10) -/

/-- `zext_32`: a u8 as the i32 of the same value. -/
def zext (b : Byte) : Word := b.setWidth 32

/-- `v[7:0]`. -/
def low8 (v : Word) : Byte := v.setWidth 8

/-- `wrap32`: the i32 congruent to n modulo 2^32. -/
def wrap32 (n : Int) : Word := BitVec.ofInt 32 n

/-- `trunc_div`: the quotient rounded toward zero (the spec's decision D9; UNVERIFIED, log 21). -/
def truncDiv (a b : Int) : Int := a.tdiv b

/-- `trunc_rem(a, b) = a - b * trunc_div(a, b)`. -/
def truncRem (a b : Int) : Int := a - b * truncDiv a b

/-- The i32 1 or 0 that a comparison or `!` pushes (44_arithmetic.md R186, R187). -/
def ofBool (b : Bool) : Word := if b then 1 else 0

/-- The value of a digit instruction, `b - 0x30`, zero-extended (30_encoding.md R82). -/
def digitValue (b : Byte) : Word := zext (b - 0x30)

/-! ### How many operands (30_encoding.md R81, R83) -/

/-- The pops column of 30_encoding.md R81: the need count. -/
def pops : Instr → Nat
  | .nop | .str | .bridge | .innum | .inchr => 0
  | .push0 | .push1 | .push2 | .push3 | .push4 | .push5 | .push6 | .push7 | .push8 | .push9 => 0
  | .left | .right | .up | .down | .rand | .halt => 0
  | .not | .drop | .outchr | .outnum | .dup | .hif | .vif => 1
  | .mod | .mul | .add | .sub | .div | .swap | .gt | .get => 2
  | .put => 3

/-- The pushes column of 30_encoding.md R81. -/
def pushes : Instr → Nat
  | .nop | .str | .bridge | .drop | .outchr | .outnum => 0
  | .left | .right | .up | .down | .rand | .halt | .hif | .vif | .put => 0
  | .not | .mod | .innum | .mul | .add | .sub | .div | .gt | .get | .inchr => 1
  | .push0 | .push1 | .push2 | .push3 | .push4 | .push5 | .push6 | .push7 | .push8 | .push9 => 1
  | .dup | .swap => 2

/-! ### The checks (00_scope.md R13) -/

/-- StackUnderflow with the instruction's need count (60_exceptions.md R231). The byte recorded is the instruction's, which is
the one fetched (DEDUCED, log 17), here and wherever an instruction raises a fault. -/
def underflow (i : Instr) (s : State) : Result := raise .stackUnderflow (encode i) (BitVec.ofNat 2 (pops i)) s

/-- `room(k)` for a byte that pops `popped` operands and pushes `pushed`, then `k` (60_exceptions.md R236). -/
def roomFor (popped pushed : Nat) (op : Byte) (s : State) (k : Result) : Result :=
  if s.depth - popped + pushed > s.par.stackDepth then raise .stackOverflow op 0 s else k

/-- `room` of an instruction (30_encoding.md R83). -/
def room (i : Instr) (s : State) (k : Result) : Result := roomFor (pops i) (pushes i) (encode i) s k

/-- `need(1)`, then one operand; `f` gets it and the stack below it. -/
def oneOperand (i : Instr) (s : State) (f : Word → List Word → Result) : Result :=
  match s.stack with
  | x :: rest => f x rest
  | [] => underflow i s

/-- `need(2)`, then two operands in pop order (00_scope.md R14); `f` gets the first popped, the second and the stack below. -/
def twoOperands (i : Instr) (s : State) (f : Word → Word → List Word → Result) : Result :=
  match s.stack with
  | y :: x :: rest => f y x rest
  | [_] => underflow i s
  | [] => underflow i s

/-- `need(3)`, then three operands in pop order (00_scope.md R14). -/
def threeOperands (i : Instr) (s : State) (f : Word → Word → Word → List Word → Result) : Result :=
  match s.stack with
  | a :: b :: c :: rest => f a b c rest
  | [_, _] => underflow i s
  | [_] => underflow i s
  | [] => underflow i s

/-- The digit form: `room(1); Push(d)` (42_literals.md, R140 to R149). -/
def pushDigit (i : Instr) (s : State) : Result := room i s (.next (s.push (digitValue (encode i))))

/-- The binary form: pop `y`, pop `x`, push one result; no room check can fail (44_arithmetic.md). -/
def binary (i : Instr) (f : Word → Word → Word) (s : State) : Result :=
  twoOperands i s fun y x rest => .next (s.withStack (f x y :: rest))

/-- The binary form of `/` and `%`: a divisor 0 raises DivisionByZero with nothing popped (44_arithmetic.md R184). -/
def division (i : Instr) (f : Word → Word → Word) (s : State) : Result :=
  twoOperands i s fun y x rest =>
    if y = 0 then raise .divisionByZero (encode i) 0 s else .next (s.withStack (f x y :: rest))

/-- The coordinate of `g` and `p`: the popped i32 values compared as signed integers with the grid's bounds, never wrapped
(46_grid_access.md, 20_memory.md R69). -/
def gridCoord (p : Params) (r c : Word) : Option Coord :=
  if 0 ≤ r.toInt ∧ r.toInt < p.height ∧ 0 ≤ c.toInt ∧ c.toInt < p.width then
    some { row := r.toInt.toNat, col := c.toInt.toNat }
  else none

end Sys2Proof.Machine
end

