-- ==== Sys2Proof/Machine/Flags.lean ====
section
/-! DEFINITION. The flags. There are no condition codes; the only flag is the string-mode flag `sm` (10_state.md R27). A
comparison pushes its result (`ofBool`), a conditional instruction pops its condition (`isZero`). -/

namespace Sys2Proof.Machine

/-- `sm <- b`. -/
def State.withSm (s : State) (b : Bool) : State := { s with sm := b }

/-- `"` outside string mode sets the flag (42_literals.md R150). -/
def State.enterString (s : State) : State := s.withSm true

/-- `"` inside string mode clears it (40_dispatch.md R104). -/
def State.leaveString (s : State) : State := s.withSm false

/-- The condition `x = 0` of `_`, `|` and `!` (41_control_flow.md R124, R125, 44_arithmetic.md R187). -/
def isZero (x : Word) : Bool := decide (x = 0)

/-- The condition `x > y` of GT, signed (44_arithmetic.md R186). -/
def signedGreater (x y : Word) : Bool := decide (x.toInt > y.toInt)

end Sys2Proof.Machine
end

