-- ==== Sys2Proof/Machine/Arithmetic.lean ====
section
/-! DEFINITION. Arithmetic, comparison and logical not (44_arithmetic.md). The exact integer result is computed and then
wrapped to 32 bits (R188). -/

namespace Sys2Proof.Machine

/-- ADD, `+`: `wrap32(x + y)` (R180). -/
def execAdd (s : State) : Result := binary .add (fun x y => wrap32 (x.toInt + y.toInt)) s

/-- SUB, `-`: `wrap32(x - y)` (R181). -/
def execSub (s : State) : Result := binary .sub (fun x y => wrap32 (x.toInt - y.toInt)) s

/-- MUL, `*`: `wrap32(x * y)` (R182). -/
def execMul (s : State) : Result := binary .mul (fun x y => wrap32 (x.toInt * y.toInt)) s

/-- DIV, `/`: `wrap32(trunc_div(x, y))` (R183, R184). -/
def execDiv (s : State) : Result := division .div (fun x y => wrap32 (truncDiv x.toInt y.toInt)) s

/-- MOD, `%`: `trunc_rem(x, y)`, which never leaves the i32 range (R184, R185). -/
def execMod (s : State) : Result := division .mod (fun x y => wrap32 (truncRem x.toInt y.toInt)) s

/-- GT, the backquote: 1 if x > y, signed (R186). -/
def execGt (s : State) : Result := binary .gt (fun x y => ofBool (signedGreater x y)) s

/-- NOT, `!` (R187). -/
def execNot (s : State) : Result := oneOperand .not s fun x rest => .next (s.withStack (ofBool (isZero x) :: rest))

end Sys2Proof.Machine
end

