-- ==== Sys2Proof/Machine/ControlFlow.lean ====
section
/-! DEFINITION. The control-flow instructions (41_control_flow.md). A write of `dir` takes effect at the next step's advance
(R130), so none of them but BRIDGE touches the pc. -/

namespace Sys2Proof.Machine

/-- UP, `^` (R120). -/
def execUp (s : State) : Result := .next (s.withDir .up)

/-- DOWN, `v` (R121). -/
def execDown (s : State) : Result := .next (s.withDir .down)

/-- RIGHT, `>` (R122). -/
def execRight (s : State) : Result := .next (s.withDir .right)

/-- LEFT, `<` (R123). -/
def execLeft (s : State) : Result := .next (s.withDir .left)

/-- HIF, `_` (R124). -/
def execHif (s : State) : Result :=
  oneOperand .hif s fun x rest => .next ((s.withStack rest).withDir (if isZero x then .right else .left))

/-- VIF, `|` (R125). -/
def execVif (s : State) : Result :=
  oneOperand .vif s fun x rest => .next ((s.withStack rest).withDir (if isZero x then .down else .up))

/-- RAND, `?`: `dir <- DirOf(rnd)` with the draw on the wire at this edge (R126). -/
def execRand (s : State) : Result := .next ((s.withDir (Dir.ofCode s.pins.rnd)).withEnv s.env.afterDraw)

/-- HALT, `@` (R127). -/
def execHalt (s : State) : Result := .next (s.withRun .halted)

/-- BRIDGE, `#`: a second advance (R128; DEDUCED for the corner W = 2, log 24). -/
def execBridge (s : State) : Result := .next s.advanced

/-- NOP, space (R129). -/
def execNop (s : State) : Result := .next s

end Sys2Proof.Machine
end

