-- ==== Sys2Proof/Machine/GridAccess.lean ====
section
/-! DEFINITION. Grid get and put (46_grid_access.md): the row is popped first, the column second, the value third (R212).
Every check is made before any pop (R213). -/

namespace Sys2Proof.Machine

/-- GET, `g`: the cell as an unsigned value (R210). -/
def execGet (s : State) : Result :=
  twoOperands .get s fun r c rest =>
    match gridCoord s.par r c with
    | none => raise .outOfBounds (encode .get) 0 s
    | some a => .next (s.withStack (zext (s.readCell a) :: rest))

/-- `p` refuses the value: the policy is FAULT and it is outside 0..255 (R211, 60_exceptions.md R237). -/
def putRejected (p : Params) (v : Word) : Bool :=
  decide (p.putPolicy = .fault) && (decide (v.toInt < 0) || decide (v.toInt > 255))

/-- PUT, `p`: the bounds check, then the value check, then the pops and the write of `v[7:0]` (R211). -/
def execPut (s : State) : Result :=
  threeOperands .put s fun r c v rest =>
    match gridCoord s.par r c with
    | none => raise .outOfBounds (encode .put) 0 s
    | some a =>
      if putRejected s.par v then raise .putValueRange (encode .put) 0 s
      else .next ((s.withStack rest).writeCell a (low8 v))

end Sys2Proof.Machine
end

