-- ==== Sys2Proof/Machine/InputOutput.lean ====
section
/-! DEFINITION. The core's side of the I/O Port and the four instructions that use it (43_io.md). A request is made in the
cycle before the edge of the instruction's step, and the transfer is made at that edge if the port answers or accepts then
(DESIGN CHOICE, log 6); else it waits in `pending`, and each later edge tries it again. Nothing of the instruction is
committed before the transfer (R162). Machine/Wires.lean shows the request in both cases. -/

namespace Sys2Proof.Machine

/-- An INT answer: ParseError ends the run, any other answer is pushed (R163). -/
def takeInt (a : Answer) (s : State) : Result :=
  if a.err then raise .parseError (encode .innum) 0 (s.tookAnswer a) else .next ((s.tookAnswer a).push a.data)

/-- A CHAR answer: the 32-bit code point is pushed unchanged, `in_err` is ignored (R160, R164). -/
def takeChar (a : Answer) (s : State) : Result := .next ((s.tookAnswer a).push a.data)

/-- The answer on the wires at this edge, ignored levels included (DESIGN CHOICE, log 23). -/
def State.wireAnswer (s : State) : Answer := { err := s.pins.inErr, data := s.pins.inData }

/-- One edge of a requested transfer (R160, R161): an input completes at an edge with `in_valid = 1`, an output with
`out_ready = 1`; at any other edge the request waits. An output's operand is popped when the word is transferred
(DEDUCED, log 18; on a stack that no reachable state has, log 25). -/
def transfer (q : Request) (s : State) : Result :=
  match q with
  | .read .int => if s.pins.inValid then takeInt s.wireAnswer s else .next (s.withPending (some (.read .int)))
  | .read .char => if s.pins.inValid then takeChar s.wireAnswer s else .next (s.withPending (some (.read .char)))
  | .write k v =>
    if s.pins.outReady then .next ((s.withStack s.stack.tail).sentWord { kind := k, word := v })
    else .next (s.withPending (some (.write k v)))

/-- INNUM, `&`: the room check comes before the request (R163). -/
def execInnum (s : State) : Result := room .innum s (transfer (.read .int) s)

/-- INCHR, `~` (R164). -/
def execInchr (s : State) : Result := room .inchr s (transfer (.read .char) s)

/-- OUTNUM, `.` (R165). -/
def execOutnum (s : State) : Result := oneOperand .outnum s fun v _ => transfer (.write .int v) s

/-- OUTCHR, `,`: only the low 8 bits are sent (R166). -/
def execOutchr (s : State) : Result := oneOperand .outchr s fun v _ => transfer (.write .char (zext (low8 v))) s

/-- The request an instruction makes of the port when it executes: none before its stack checks have passed, and none for any
other instruction (R162 to R166). -/
def issued (i : Instr) (s : State) : Option Request :=
  match i with
  | .innum => if s.depth < s.par.stackDepth then some (.read .int) else none
  | .inchr => if s.depth < s.par.stackDepth then some (.read .char) else none
  | .outnum => s.stack.head?.map fun v => .write .int v
  | .outchr => s.stack.head?.map fun v => .write .char (zext (low8 v))
  | .nop | .not | .str | .bridge | .drop | .mod | .mul | .add | .sub | .div => none
  | .push0 | .push1 | .push2 | .push3 | .push4 | .push5 | .push6 | .push7 | .push8 | .push9 => none
  | .dup | .left | .right | .rand | .halt | .swap | .up | .hif | .gt | .get | .put | .down | .vif => none

end Sys2Proof.Machine
end

