-- ==== Sys2Proof/Machine/Literals.lean ====
section
/-! DEFINITION. The literal instructions (42_literals.md): ten digits and the opening quote. -/

namespace Sys2Proof.Machine

/-- PUSH0, `0` (R140). -/
def execPush0 (s : State) : Result := pushDigit .push0 s

/-- PUSH1, `1` (R141). -/
def execPush1 (s : State) : Result := pushDigit .push1 s

/-- PUSH2, `2` (R142). -/
def execPush2 (s : State) : Result := pushDigit .push2 s

/-- PUSH3, `3` (R143). -/
def execPush3 (s : State) : Result := pushDigit .push3 s

/-- PUSH4, `4` (R144). -/
def execPush4 (s : State) : Result := pushDigit .push4 s

/-- PUSH5, `5` (R145). -/
def execPush5 (s : State) : Result := pushDigit .push5 s

/-- PUSH6, `6` (R146). -/
def execPush6 (s : State) : Result := pushDigit .push6 s

/-- PUSH7, `7` (R147). -/
def execPush7 (s : State) : Result := pushDigit .push7 s

/-- PUSH8, `8` (R148). -/
def execPush8 (s : State) : Result := pushDigit .push8 s

/-- PUSH9, `9` (R149). -/
def execPush9 (s : State) : Result := pushDigit .push9 s

/-- STR, `"` fetched with `sm = 0` (R150). -/
def execStr (s : State) : Result := .next s.enterString

end Sys2Proof.Machine
end

