-- ==== Sys2Proof/Machine/StackOps.lean ====
section
/-! DEFINITION. Stack manipulation (45_stack.md). -/

namespace Sys2Proof.Machine

/-- DUP, `:`: `need(1); room(2)` (R200). -/
def execDup (s : State) : Result :=
  oneOperand .dup s fun v rest => room .dup s (.next (s.withStack (v :: v :: rest)))

/-- SWAP, `\`: pop `y`, pop `x`, push `y`, push `x` (R201). -/
def execSwap (s : State) : Result := twoOperands .swap s fun y x rest => .next (s.withStack (x :: y :: rest))

/-- DROP, `$` (R202). -/
def execDrop (s : State) : Result := oneOperand .drop s fun _ rest => .next (s.withStack rest)

end Sys2Proof.Machine
end

