-- ==== Sys2Proof/Machine/Dispatch.lean ====
section
/-! DEFINITION. One arm per instruction: `Execute(op)` of 40_dispatch.md R102 after the decoding. -/

namespace Sys2Proof.Machine

def exec (i : Instr) (s : State) : Host.Outcome State Fault Refusal :=
  match i with
  | .nop => Sys2Proof.Machine.execNop s
  | .not => Sys2Proof.Machine.execNot s
  | .str => Sys2Proof.Machine.execStr s
  | .bridge => Sys2Proof.Machine.execBridge s
  | .drop => Sys2Proof.Machine.execDrop s
  | .mod => Sys2Proof.Machine.execMod s
  | .innum => Sys2Proof.Machine.execInnum s
  | .mul => Sys2Proof.Machine.execMul s
  | .add => Sys2Proof.Machine.execAdd s
  | .outchr => Sys2Proof.Machine.execOutchr s
  | .sub => Sys2Proof.Machine.execSub s
  | .outnum => Sys2Proof.Machine.execOutnum s
  | .div => Sys2Proof.Machine.execDiv s
  | .push0 => Sys2Proof.Machine.execPush0 s
  | .push1 => Sys2Proof.Machine.execPush1 s
  | .push2 => Sys2Proof.Machine.execPush2 s
  | .push3 => Sys2Proof.Machine.execPush3 s
  | .push4 => Sys2Proof.Machine.execPush4 s
  | .push5 => Sys2Proof.Machine.execPush5 s
  | .push6 => Sys2Proof.Machine.execPush6 s
  | .push7 => Sys2Proof.Machine.execPush7 s
  | .push8 => Sys2Proof.Machine.execPush8 s
  | .push9 => Sys2Proof.Machine.execPush9 s
  | .dup => Sys2Proof.Machine.execDup s
  | .left => Sys2Proof.Machine.execLeft s
  | .right => Sys2Proof.Machine.execRight s
  | .rand => Sys2Proof.Machine.execRand s
  | .halt => Sys2Proof.Machine.execHalt s
  | .swap => Sys2Proof.Machine.execSwap s
  | .up => Sys2Proof.Machine.execUp s
  | .hif => Sys2Proof.Machine.execHif s
  | .gt => Sys2Proof.Machine.execGt s
  | .get => Sys2Proof.Machine.execGet s
  | .put => Sys2Proof.Machine.execPut s
  | .down => Sys2Proof.Machine.execDown s
  | .vif => Sys2Proof.Machine.execVif s
  | .inchr => Sys2Proof.Machine.execInchr s

end Sys2Proof.Machine
end

