-- ==== Sys2Proof/Machine/Edge.lean ====
section
/-! DEFINITION. One rising edge of the clock: the dispatcher's step (40_dispatch.md R101) where the core takes one, and what
the edge does in every other run state. -/

namespace Sys2Proof.Machine

/-- The byte of the quote, which ends string mode (30_encoding.md R84). -/
def quoteByte : Byte := 0x22

/-- `StringCell(op)` (40_dispatch.md R103, R104). -/
def stringCell (op : Byte) (s : State) : Result :=
  if op = quoteByte then .next s.leaveString else roomFor 0 1 op s (.next (s.push (zext op)))

/-- `Execute(op)` (40_dispatch.md R102); an illegal byte raises UnknownInstruction (R107). -/
def execute (op : Byte) (s : State) : Result :=
  match decode op with
  | some i => exec i s
  | none => raise .unknownInstruction op 0 s

/-- Decode or push, as the string-mode flag says (40_dispatch.md R101, 30_encoding.md R84). -/
def dispatch (op : Byte) (s : State) : Result := if s.sm then stringCell op s else execute op s

/-- Fetch at the pc and dispatch; the pc is always a valid coordinate (10_state.md R24), so the fault is never raised in a
state a run reaches (DESIGN CHOICE, log 12). -/
def fetchAndDispatch (s : State) : Result :=
  match s.fetch with
  | some op => dispatch op s
  | none => .fault (.noSuchCell s.pc)

/-- One step of the core (40_dispatch.md R101): the advance first, then the fetch, then the dispatch. -/
def coreStep (s : State) : Result := fetchAndDispatch s.advanced

/-- What a rising edge does: `rst` wins over everything (70_reset_and_hazards.md R260, 60_exceptions.md R239); in IDLE the
load port and `start` act; in RUN a waiting transfer is tried again or a step is taken; in HALTED and FAULTED nothing
happens (10_state.md R29, DEDUCED, log 13). -/
def edge (s : State) : Result :=
  if s.pins.rst then .next s.rst
  else
    match s.run with
    | .idle => .next s.idleEdge
    | .run =>
      match s.pending with
      | some q => transfer q s
      | none => coreStep s
    | .halted => .next s
    | .faulted => .next s

/-- The host's wires move on to the next edge. -/
def endEdge : Result → Result
  | .next s => .next s.afterEdge
  | .fault r => .fault r
  | .refused r => .refused r

end Sys2Proof.Machine
end

