-- ==== Sys2Proof/Machine/Step.lean ====
section
/-! DEFINITION. One step of the model is one rising edge of the clock (DESIGN CHOICE, log 1), and the form in which the host places an
instruction for the next step. -/

namespace Sys2Proof.Machine

/-- One rising edge of `clk`, and the host's wires move on. -/
def step (s : State) : Host.Outcome State Fault Refusal := endEdge (edge s)

/-- The state in which the next step runs the instruction whose byte is w: the byte stands in the cell the step advances
onto, the core is in RUN outside string mode with no transfer pending, and the next edge asserts no reset. It stands for
loading a program through the load port and `start` (70_reset_and_hazards.md R265; DESIGN CHOICE, log 16). -/
def State.withFetchWord (s : State) (nbits w : Nat) : State :=
  { s.writeCell (advance s.par s.dir s.pc) (BitVec.ofNat 8 (w % 2 ^ nbits)) with
    run := .run
    sm := false
    pending := none
    busy := 0
    env := { s.env with edges := s.env.edges.map fun p => { p with rst := false } } }

end Sys2Proof.Machine
end

