-- ==== Sys2Proof/Machine/Loader.lean ====
section
/-! DEFINITION. The host's loader (70_reset_and_hazards.md R264) and the boot order (R265): program text as levels of the
load port's wires, edge by edge. -/

namespace Sys2Proof.Machine

/-- LF, the byte that ends a line (R264). -/
def lineFeed : Byte := 0x0A

/-- CR (R264). -/
def carriageReturn : Byte := 0x0D

/-- The text split at each LF; n LFs give n + 1 lines (R264; DEDUCED, log 20). -/
def splitLines : List Byte → List (List Byte)
  | [] => [[]]
  | b :: t =>
    if b = lineFeed then [] :: splitLines t
    else
      match splitLines t with
      | l :: ls => (b :: l) :: ls
      | [] => [[b]]

/-- One CR at the end of a line removed (R264). -/
def stripCr (l : List Byte) : List Byte := if l.getLast? = some carriageReturn then l.dropLast else l

/-- The lines of a program text, at most H of them and at most W bytes of each (R264). -/
def textLines (p : Params) (text : List Byte) : List (List Byte) :=
  ((splitLines text).map fun l => (stripCr l).take p.width).take p.height

/-- The cells of one line from a column on, left to right. -/
def lineCells (row : Nat) : Nat → List Byte → List (Coord × Byte)
  | _, [] => []
  | j, b :: l => ({ row := row, col := j }, b) :: lineCells row (j + 1) l

/-- The cells of the lines from a row on, top to bottom. -/
def rowsCells : Nat → List (List Byte) → List (Coord × Byte)
  | _, [] => []
  | i, l :: ls => lineCells i 0 l ++ rowsCells (i + 1) ls

/-- The loader's writes, one cell each (R264). -/
def loaderWrites (p : Params) (text : List Byte) : List (Coord × Byte) := rowsCells 0 (textLines p text)

/-- One load-port write on the wires (R263). -/
def Pins.load (c : Coord) (b : Byte) : Pins :=
  { Pins.quiet with ldWe := true, ldRow := c.row, ldCol := c.col, ldData := b }

/-- `start` for one cycle (R265, R266). -/
def Pins.starting : Pins := { Pins.quiet with start := true }

/-- The edges of the boot order after the reset edge (R265): wait while `rst_busy` is 1, write the program, start. -/
def bootEdges (p : Params) (text : List Byte) : List Pins :=
  List.replicate p.clearEdges Pins.quiet ++ (loaderWrites p text).map (fun w => Pins.load w.1 w.2) ++ [Pins.starting]

/-- A core just reset whose host is about to boot a program text, and which answers, accepts and draws as `e` says
afterwards (R265; DESIGN CHOICE, log 16). -/
def State.boot (p : Params) (e : Env) (text : List Byte) : State :=
  State.resetWith p { e with edges := bootEdges p text }

end Sys2Proof.Machine
end

