-- ==== Sys2Proof/Machine/Wires.lean ====
section
/-! DEFINITION. The wires on which the core drives the I/O Port (10_state.md R36, 43_io.md R160, R161), in the cycle that the
coming edge ends: a request shows from the cycle in which it is issued to the one in which it is answered or accepted, one
and the same cycle where the port is ready at once. -/

namespace Sys2Proof.Machine

/-- The request of the step that a running core is about to take: its instruction's, outside string mode. In this cycle the
pc register still shows the cell before, and it moves at the coming edge, answered or not (DESIGN CHOICE, log 26). -/
def State.stepRequest (s : State) : Option Request :=
  if s.sm then none else (s.advanced.fetch.bind decode).bind fun i => issued i s.advanced

/-- The request the core drives in this cycle: the waiting one, or the one of the step it is about to take; none outside RUN
(10_state.md R29). A request that is answered or accepted at an edge is gone after it, and the next step's own may be driven
from that very edge on, with no cycle between them (DESIGN CHOICE, log 27). -/
def State.request (s : State) : Option Request :=
  match s.run, s.pending with
  | .run, some q => some q
  | .run, none => s.stepRequest
  | .idle, _ => none
  | .halted, _ => none
  | .faulted, _ => none

/-- A request on the wire `in_req`. -/
def Request.inReq : Request → Bool
  | .read _ => true
  | .write _ _ => false

/-- A request on the wire `in_kind`. -/
def Request.inKind : Request → Option (BitVec 1)
  | .read k => some k.code
  | .write _ _ => none

/-- A request on the wire `out_valid`. -/
def Request.outValid : Request → Bool
  | .read _ => false
  | .write _ _ => true

/-- A request on the wire `out_kind`. -/
def Request.outKind : Request → Option (BitVec 1)
  | .read _ => none
  | .write k _ => some k.code

/-- A request on the wire `out_data`. -/
def Request.outData : Request → Option Word
  | .read _ => none
  | .write _ v => some v

/-- `in_req` (43_io.md R160). -/
def State.inReq (s : State) : Bool := s.request.any Request.inReq

/-- `in_kind`; no value without an input request (43_io.md R160). -/
def State.inKind (s : State) : Option (BitVec 1) := s.request.bind Request.inKind

/-- `out_valid` (43_io.md R161). -/
def State.outValid (s : State) : Bool := s.request.any Request.outValid

/-- `out_kind`; no value where no word is offered (43_io.md R161). -/
def State.outKind (s : State) : Option (BitVec 1) := s.request.bind Request.outKind

/-- `out_data`; no value where no word is offered (43_io.md R161). -/
def State.outData (s : State) : Option Word := s.request.bind Request.outData

end Sys2Proof.Machine
end

