-- ==== Sys2Proof/Safety.lean ====
section
/-! DEFINITION. What a state of a run satisfies, in the terms the statements use. -/

namespace Sys2Proof.Machine

/-- The byte of the instruction that made a request. -/
def Request.op : Request → Byte
  | .read .int => encode .innum
  | .read .char => encode .inchr
  | .write .int _ => encode .outnum
  | .write .char _ => encode .outchr

/-- A waiting request fits the stack: room for the answer, or the offered word made from the operand that is still on top
(43_io.md R162 to R166). -/
def Request.fits (q : Request) (s : State) : Prop :=
  match q with
  | .read _ => s.depth < s.par.stackDepth
  | .write .int v => s.stack.head? = some v
  | .write .char v => s.stack.head?.map (fun x => zext (low8 x)) = some v

/-- The invariant of the machine: every rule of the spec about what a state always satisfies. -/
structure State.Inv (s : State) : Prop where
  /-- The parameters keep their bounds (00_scope.md R7). -/
  params : s.par.wf = true
  /-- The grid's list is in canonical form and lists only cells of the grid (10_state.md R21; DESIGN CHOICE, log 11). -/
  grid : Memory.wf s.par s.grid
  /-- The depth never exceeds STACK_DEPTH (10_state.md R22). -/
  depth : s.depth ≤ s.par.stackDepth
  /-- The pc is always a valid coordinate (10_state.md R24). -/
  pc : s.pc.valid s.par
  /-- In IDLE no step has executed since the reset (10_state.md R29). -/
  idle : s.run = .idle →
    s.stack = [] ∧ s.pc = { row := 0, col := s.par.width - 1 } ∧ s.dir = .right ∧ s.sm = false ∧ s.out = [] ∧ s.took = []
  /-- `rst_busy` is 1 only in IDLE (70_reset_and_hazards.md R260). -/
  busy : s.busy ≠ 0 → s.run = .idle
  /-- A step that waits on the port stays in RUN on the cell of its instruction (10_state.md R26, R29, R32). -/
  waiting : ∀ q, s.pending = some q → s.run = .run ∧ s.sm = false ∧ s.readCell s.pc = q.op ∧ q.fits s
  /-- HALTED stands on an `@` fetched outside string mode (41_control_flow.md R127). -/
  halted : s.run = .halted → s.readCell s.pc = encode .halt ∧ s.sm = false
  /-- Outside FAULTED the fault record says no fault (10_state.md R31). -/
  noFault : s.run ≠ .faulted → s.fault = FaultRecord.clear
  /-- In FAULTED it names the fault, the byte at the pc and the depth (10_state.md R31, 60_exceptions.md R230, R240). -/
  faulted : s.run = .faulted →
    s.fault.code ≠ .none ∧ s.fault.op = s.readCell s.pc ∧ s.fault.depth = s.depth
      ∧ (s.fault.code = .stackUnderflow → s.depth < s.fault.need.toNat)
      ∧ (s.fault.code ≠ .stackUnderflow → s.fault.need = 0)
      ∧ (s.sm = true → s.fault.code = .stackOverflow)

/-- The core takes a step at this edge (40_dispatch.md R101): no reset, RUN, no request pending. -/
structure State.Stepping (s : State) : Prop where
  noReset : s.pins.rst = false
  running : s.run = .run
  noRequest : s.pending = none

/-- The popped pair (row, column) lies in the grid, compared as signed integers (20_memory.md R69). -/
abbrev onGrid (p : Params) (r c : Word) : Prop := 0 ≤ r.toInt ∧ r.toInt < p.height ∧ 0 ≤ c.toInt ∧ c.toInt < p.width

/-- The operand checks, and for `&` the port's answer: the checks that come after need and room (60_exceptions.md R238). -/
def operandFault (i : Instr) (s : State) : FaultCode :=
  match i, s.stack with
  | .div, y :: _ => if y = 0 then .divisionByZero else .none
  | .mod, y :: _ => if y = 0 then .divisionByZero else .none
  | .get, r :: c :: _ => if onGrid s.par r c then .none else .outOfBounds
  | .put, r :: c :: v :: _ =>
    if ¬onGrid s.par r c then .outOfBounds
    else if s.par.putPolicy = .fault ∧ (v.toInt < 0 ∨ 255 < v.toInt) then .putValueRange
    else .none
  | .innum, _ => if s.pins.inValid = true ∧ s.pins.inErr = true then .parseError else .none
  | _, _ => .none

/-- The first check of an instruction that fails, in the order of 60_exceptions.md R238: the need check, the room check,
then the others. Written from the rule, beside the meanings. -/
def firstFault (i : Instr) (s : State) : FaultCode :=
  if s.stack.length < pops i then .stackUnderflow
  else if s.stack.length + pushes i > s.par.stackDepth + pops i then .stackOverflow
  else operandFault i s

end Sys2Proof.Machine
end

