-- ==== Sys2Proof/Certificates/Slice0/Obligations.lean ====
section
/-! DEFINITION. The statements about the model, from the numbered rules of spec/. A next state is written out whole, so a
result statement is its instruction's completion statement and its frame at once: what the record update does not name is
unchanged, and with an unchanged grid every cell reads as before. -/

open Sys2Proof Sys2Proof.Machine

/-! ### Encoding (30_encoding.md) -/

/-- R81: the 37 rows of the opcode map, each with its byte, its instruction and its pops and pushes; every instruction is
in one. -/
def Obligations.OpcodeMapRows : Prop :=
  let rows : List (Byte × Instr × Nat × Nat) :=
    [(0x20, .nop, 0, 0), (0x21, .not, 1, 1), (0x22, .str, 0, 0), (0x23, .bridge, 0, 0), (0x24, .drop, 1, 0),
      (0x25, .mod, 2, 1), (0x26, .innum, 0, 1), (0x2A, .mul, 2, 1), (0x2B, .add, 2, 1), (0x2C, .outchr, 1, 0),
      (0x2D, .sub, 2, 1), (0x2E, .outnum, 1, 0), (0x2F, .div, 2, 1)] ++
    [(0x30, .push0, 0, 1), (0x31, .push1, 0, 1), (0x32, .push2, 0, 1), (0x33, .push3, 0, 1), (0x34, .push4, 0, 1),
      (0x35, .push5, 0, 1), (0x36, .push6, 0, 1), (0x37, .push7, 0, 1), (0x38, .push8, 0, 1), (0x39, .push9, 0, 1),
      (0x3A, .dup, 1, 2), (0x3C, .left, 0, 0), (0x3E, .right, 0, 0), (0x3F, .rand, 0, 0), (0x40, .halt, 0, 0)] ++
    [(0x5C, .swap, 2, 2), (0x5E, .up, 0, 0), (0x5F, .hif, 1, 0), (0x60, .gt, 2, 1), (0x67, .get, 2, 1),
      (0x70, .put, 3, 0), (0x76, .down, 0, 0), (0x7C, .vif, 1, 0), (0x7E, .inchr, 0, 1)]
  rows.length = 37 ∧
  (∀ row ∈ rows, decode row.1 = some row.2.1 ∧ encode row.2.1 = row.1 ∧ pops row.2.1 = row.2.2.1
    ∧ pushes row.2.1 = row.2.2.2) ∧
  ∀ i : Instr, ∃ row ∈ rows, row.2.1 = i

/-- Decode and encode agree in both directions: the byte of an instruction decodes to it, and a byte that decodes is the
byte of its instruction (30_encoding.md R80: the whole byte selects the operation). -/
def Obligations.DecodeAndEncodeAgree : Prop :=
  (∀ i : Instr, i.wf = true → decode (encode i) = some i) ∧ ∀ (b : Byte) (i : Instr), decode b = some i → encode i = b

/-- R85, R107: with `sm = 0` exactly the listed 219 byte values are illegal, and fetching one raises UnknownInstruction:
the stack, the grid, `dir` and `sm` are unchanged and the pc stands on the illegal cell. (The host's schedule, which moves on
by one edge, is the model's form: DESIGN CHOICE, log 3.) -/
def Obligations.IllegalBytesAreTheListedRanges : Prop :=
  (∀ b : Byte, decode b = none ↔
    b.toNat ≤ 0x1F ∨ (0x27 ≤ b.toNat ∧ b.toNat ≤ 0x29) ∨ b.toNat = 0x3B ∨ b.toNat = 0x3D
      ∨ (0x41 ≤ b.toNat ∧ b.toNat ≤ 0x5B) ∨ b.toNat = 0x5D ∨ (0x61 ≤ b.toNat ∧ b.toNat ≤ 0x66)
      ∨ (0x68 ≤ b.toNat ∧ b.toNat ≤ 0x6F) ∨ (0x71 ≤ b.toNat ∧ b.toNat ≤ 0x75)
      ∨ (0x77 ≤ b.toNat ∧ b.toNat ≤ 0x7B) ∨ b.toNat = 0x7D ∨ 0x7F ≤ b.toNat) ∧
  ((List.range 256).filter fun n => decode (BitVec.ofNat 8 n) == none).length = 219 ∧
  ∀ (s : State) (b : Byte), s.Stepping → s.sm = false → (advance s.par s.dir s.pc).valid s.par →
    s.readCell (advance s.par s.dir s.pc) = b → decode b = none →
    step s = .next { s with
      pc := advance s.par s.dir s.pc
      run := .faulted
      fault := { code := .unknownInstruction, op := b, need := 0, depth := s.stack.length }
      env := { s.env with edges := s.env.edges.tail } }

/-! ### The step (40_dispatch.md) -/

/-- R100: the advance moves one cell and wraps; on a valid coordinate it is the modular formula with (dr, dc) = (0, 1),
(0, -1), (1, 0), (-1, 0), and the result is valid. -/
def Obligations.AdvanceWrapsModuloTheGrid : Prop :=
  ∀ (p : Params) (c : Coord), c.valid p →
    (advance p .right c = ⟨c.row, if c.col = p.width - 1 then 0 else c.col + 1⟩ ∧
      advance p .left c = ⟨c.row, if c.col = 0 then p.width - 1 else c.col - 1⟩ ∧
      advance p .down c = ⟨if c.row = p.height - 1 then 0 else c.row + 1, c.col⟩ ∧
      advance p .up c = ⟨if c.row = 0 then p.height - 1 else c.row - 1, c.col⟩) ∧
    ((advance p .right c).col = ((c.col : Int) + 1) % p.width ∧ (advance p .left c).col = ((c.col : Int) - 1) % p.width ∧
      (advance p .down c).row = ((c.row : Int) + 1) % p.height ∧ (advance p .up c).row = ((c.row : Int) - 1) % p.height) ∧
    ∀ d, (advance p d c).valid p

/-- R109: W advances Right or Left, H advances Down or Up, return to the start; fewer advances Right or Down are a sum
modulo W or H. -/
def Obligations.AdvanceRoundTripReturns : Prop :=
  ∀ (p : Params) (c : Coord), c.valid p →
    (advance p .right)^[p.width] c = c ∧ (advance p .left)^[p.width] c = c ∧
    (advance p .down)^[p.height] c = c ∧ (advance p .up)^[p.height] c = c ∧
    ∀ n, (advance p .right)^[n] c = ⟨c.row, (c.col + n) % p.width⟩ ∧
      (advance p .down)^[n] c = ⟨(c.row + n) % p.height, c.col⟩

/-- R101, R102: a step advances, fetches the byte at the new pc, and outside string mode executes the instruction the byte
decodes to; the model's step then moves the host's wires on by one edge and adds nothing else. -/
def Obligations.StepRunsTheDecodedInstruction : Prop :=
  ∀ (s : State) (i : Instr), s.Stepping → s.sm = false → (advance s.par s.dir s.pc).valid s.par →
    decode (s.readCell (advance s.par s.dir s.pc)) = some i →
    ∃ t, exec i { s with pc := advance s.par s.dir s.pc } = .next t ∧
      step s = .next { t with env := { t.env with edges := t.env.edges.tail } }

/-- R103, R104: in string mode every byte but the quote is pushed zero-extended, whatever it would encode; with a full
stack StackOverflow is raised, nothing is pushed and `sm` stays 1; a quote clears `sm`, pushes nothing and raises nothing. (The
host's schedule, which moves on by one edge, is the model's form: DESIGN CHOICE, log 3.) -/
def Obligations.StringCellsArePushedUntilTheQuote : Prop :=
  (∀ s : State, s.Stepping → s.sm = true → (advance s.par s.dir s.pc).valid s.par →
    s.readCell (advance s.par s.dir s.pc) = 0x22 →
    step s = .next { s with
      pc := advance s.par s.dir s.pc
      sm := false
      env := { s.env with edges := s.env.edges.tail } }) ∧
  ∀ (s : State) (op : Byte), s.Stepping → s.sm = true → (advance s.par s.dir s.pc).valid s.par →
    s.readCell (advance s.par s.dir s.pc) = op → op ≠ 0x22 →
    (s.stack.length < s.par.stackDepth →
      step s = .next { s with
        pc := advance s.par s.dir s.pc
        stack := op.setWidth 32 :: s.stack
        env := { s.env with edges := s.env.edges.tail } }) ∧
    (s.par.stackDepth ≤ s.stack.length →
      step s = .next { s with
        pc := advance s.par s.dir s.pc
        run := .faulted
        fault := { code := .stackOverflow, op := op, need := 0, depth := s.stack.length }
        env := { s.env with edges := s.env.edges.tail } })

/-- R151: a string literal's cells are pushed in the order they are met, the last one on top: with no quote among the next
n cells and room for them, n steps push those n cells' bytes and change only the pc and the stack, whatever else than `rst`
the host drives at those n edges (its schedule is the model's form, log 3). -/
def Obligations.StringLiteralPushesItsCellsInOrder : Prop :=
  ∀ (n : Nat) (s : State), s.Inv → s.run = .run → s.pending = none → s.sm = true →
    (∀ p ∈ s.env.edges.take n, p.rst = false) → s.stack.length + n ≤ s.par.stackDepth →
    (∀ k < n, s.readCell ((advance s.par s.dir)^[k + 1] s.pc) ≠ 0x22) →
    Sys2Proof.core.run n s = .next { s with
      pc := (advance s.par s.dir)^[n] s.pc
      stack := ((List.range n).map fun k => (s.readCell ((advance s.par s.dir)^[k + 1] s.pc)).setWidth 32).reverse
        ++ s.stack
      env := { s.env with edges := s.env.edges.drop n } }

/-- R106: every string literal ends. From the state an opening quote leaves (the pc on a cell that holds the quote, `sm`
set), a quote clears `sm` within W steps (H steps when moving Up or Down), or the stack overflows before that, whatever else
than `rst` the host drives meanwhile (its schedule is the model's form, log 3). -/
def Obligations.StringLiteralEnds : Prop :=
  ∀ s : State, s.Inv → s.run = .run → s.pending = none → s.sm = true → s.readCell s.pc = 0x22 →
    let bound := match s.dir with | .right | .left => s.par.width | .down | .up => s.par.height
    (∀ p ∈ s.env.edges.take bound, p.rst = false) →
    ∃ n t, 1 ≤ n ∧ n ≤ bound ∧ Sys2Proof.core.run n s = .next t ∧
      ((t.run = .run ∧ t.sm = false ∧ t.grid = s.grid ∧ t.dir = s.dir) ∨
        (t.run = .faulted ∧ t.fault.code = .stackOverflow))

/-! ### Control flow (41_control_flow.md) -/

/-- R120 to R123: each direction setter writes `dir` and nothing else, raises nothing, and the next advance wraps at the
edge it names. -/
def Obligations.DirectionSettersWriteDir : Prop :=
  (decode 0x5E = some .up ∧ decode 0x76 = some .down ∧ decode 0x3E = some .right ∧ decode 0x3C = some .left) ∧
  (∀ s : State, exec .up s = .next { s with dir := .up } ∧ exec .down s = .next { s with dir := .down } ∧
    exec .right s = .next { s with dir := .right } ∧ exec .left s = .next { s with dir := .left }) ∧
  ∀ (p : Params) (r c : Nat), advance p .up ⟨0, c⟩ = ⟨p.height - 1, c⟩ ∧ advance p .down ⟨p.height - 1, c⟩ = ⟨0, c⟩ ∧
    advance p .right ⟨r, p.width - 1⟩ = ⟨r, 0⟩ ∧ advance p .left ⟨r, 0⟩ = ⟨r, p.width - 1⟩

/-- R124: `_` pops x; zero selects Right, every other value Left; an empty stack raises StackUnderflow with need 1. -/
def Obligations.HifSelectsRightOnZero : Prop :=
  decode 0x5F = some .hif ∧
  (∀ (s : State) (x : Word) (rest : List Word), exec .hif { s with stack := x :: rest } =
    .next { s with stack := rest, dir := if x.toInt = 0 then .right else .left }) ∧
  ∀ s : State, exec .hif { s with stack := [] } = .next { s with
    stack := []
    run := .faulted
    fault := { code := .stackUnderflow, op := 0x5F, need := 1, depth := 0 } }

/-- R125: `|` pops x; zero selects Down, every other value Up (and from row 0 the next advance Up wraps to row H-1); an
empty stack raises StackUnderflow with need 1. -/
def Obligations.VifSelectsDownOnZero : Prop :=
  decode 0x7C = some .vif ∧
  (∀ (s : State) (x : Word) (rest : List Word), exec .vif { s with stack := x :: rest } =
    .next { s with stack := rest, dir := if x.toInt = 0 then .down else .up }) ∧
  (∀ s : State, exec .vif { s with stack := [] } = .next { s with
    stack := []
    run := .faulted
    fault := { code := .stackUnderflow, op := 0x7C, need := 1, depth := 0 } }) ∧
  ∀ (p : Params) (c : Nat), advance p .up ⟨0, c⟩ = ⟨p.height - 1, c⟩

/-- R126: `?` sets the direction its draw stands for and touches no other state of the core; the host's side moves on past
the draw (DESIGN CHOICE, log 3). Every direction is a possible outcome from every state. Where the host gives no draw, the
direction is that of the free value `Config.rndDraw` of a counter that it advances, whatever that is: this last clause is the
model's own (DESIGN CHOICE, log 5). -/
def Obligations.RandSetsTheDrawnDirection : Prop :=
  decode 0x3F = some .rand ∧
  (∀ s : State, exec .rand s = .next { s with dir := Dir.ofCode s.pins.rnd, env := s.env.afterDraw }) ∧
  (Dir.ofCode 0b00 = .right ∧ Dir.ofCode 0b01 = .down ∧ Dir.ofCode 0b10 = .left ∧ Dir.ofCode 0b11 = .up) ∧
  (∀ (s : State) (d : Dir), ∃ e t, exec .rand { s with env := e } = .next t ∧ t.dir = d) ∧
  ∀ s : State, s.env.edges = [] → s.env.draws = [] → s.pins.rnd = Config.rndDraw s.env.drawn ∧
    s.env.afterDraw = { s.env with drawn := s.env.drawn + 1 }

/-- R127: `@` ends the run: `run` becomes HALTED and everything else stays as it is, and no further step executes without a
reset (that the whole core keeps its value at such an edge is R249; DEDUCED, log 13). In string mode it is data. -/
def Obligations.HaltEndsTheRun : Prop :=
  decode 0x40 = some .halt ∧ (∀ s : State, exec .halt s = .next { s with run := .halted }) ∧
  (∀ s : State, s.run = .halted → s.pins.rst = false →
    step s = .next { s with env := { s.env with edges := s.env.edges.tail } }) ∧
  ∀ s : State, s.Stepping → s.sm = true → (advance s.par s.dir s.pc).valid s.par →
    s.readCell (advance s.par s.dir s.pc) = 0x40 → s.stack.length < s.par.stackDepth →
    step s = .next { s with
      pc := advance s.par s.dir s.pc
      stack := 64 :: s.stack
      env := { s.env with edges := s.env.edges.tail } }

/-- R128: `#` advances the pc a second time in the current direction and changes nothing else, whatever the skipped cell
holds; with W = 1 a horizontal skip lands on the `#` itself, with H = 1 a vertical one. -/
def Obligations.BridgeSkipsOneCell : Prop :=
  decode 0x23 = some .bridge ∧
  (∀ s : State, exec .bridge s = .next { s with pc := advance s.par s.dir s.pc }) ∧
  (∀ (p : Params) (c : Coord), c.valid p → p.width = 1 → advance p .right c = c ∧ advance p .left c = c) ∧
  ∀ (p : Params) (c : Coord), c.valid p → p.height = 1 → advance p .down c = c ∧ advance p .up c = c

/-- R129: a space changes nothing beyond the step's advance: the step moves the pc by one cell and that is all. In string
mode it is pushed as 32. (The host's schedule, which moves on by one edge, is the model's form: DESIGN CHOICE, log 3.) -/
def Obligations.NopOnlyAdvances : Prop :=
  decode 0x20 = some .nop ∧ (∀ s : State, exec .nop s = .next s) ∧
  (∀ s : State, s.Stepping → s.sm = false → (advance s.par s.dir s.pc).valid s.par →
    s.readCell (advance s.par s.dir s.pc) = 0x20 →
    step s = .next { s with pc := advance s.par s.dir s.pc, env := { s.env with edges := s.env.edges.tail } }) ∧
  ∀ s : State, s.Stepping → s.sm = true → (advance s.par s.dir s.pc).valid s.par →
    s.readCell (advance s.par s.dir s.pc) = 0x20 → s.stack.length < s.par.stackDepth →
    step s = .next { s with
      pc := advance s.par s.dir s.pc
      stack := 32 :: s.stack
      env := { s.env with edges := s.env.edges.tail } }

/-- R130: no instruction but `#` moves the pc; `#` moves it by the direction current at that step and does not write
`dir`. -/
def Obligations.OnlyBridgeMovesThePc : Prop :=
  ∀ (i : Instr) (s : State), ∃ t, exec i s = .next t ∧
    (i ≠ .bridge → t.pc = s.pc) ∧ (i = .bridge → t.pc = advance s.par s.dir s.pc ∧ t.dir = s.dir)

/-! ### Literals (42_literals.md) -/

/-- R140 to R149: a digit pushes its value; with a full stack it raises StackOverflow and pushes nothing. -/
def Obligations.DigitsPushTheirValue : Prop :=
  ∀ row ∈ ([(0x30, .push0, 0), (0x31, .push1, 1), (0x32, .push2, 2), (0x33, .push3, 3), (0x34, .push4, 4),
      (0x35, .push5, 5), (0x36, .push6, 6), (0x37, .push7, 7), (0x38, .push8, 8), (0x39, .push9, 9)] :
      List (Byte × Instr × Word)),
    decode row.1 = some row.2.1 ∧
    (∀ s : State, s.stack.length < s.par.stackDepth →
      exec row.2.1 s = .next { s with stack := row.2.2 :: s.stack }) ∧
    ∀ s : State, s.par.stackDepth ≤ s.stack.length →
      exec row.2.1 s = .next { s with
        run := .faulted
        fault := { code := .stackOverflow, op := row.1, need := 0, depth := s.stack.length } }

/-- R150: outside string mode a quote sets `sm` and pushes nothing. -/
def Obligations.StrEntersStringMode : Prop :=
  decode 0x22 = some .str ∧ ∀ s : State, exec .str s = .next { s with sm := true }

/-! ### Input and output (43_io.md) -/

/-- R163: `&` pushes the port's i32; ParseError ends the run with nothing pushed; with a full stack StackOverflow comes
before the request, so no input is consumed; without an answer the request waits. That an answer completes the instruction
at the edge of its issuing cycle, the record `took` and the host's list are the model's own (DESIGN CHOICE, logs 6, 9, 3). -/
def Obligations.InnumPushesTheAnswer : Prop :=
  decode 0x26 = some .innum ∧
  (∀ s : State, s.stack.length < s.par.stackDepth → s.pins.inValid = true → s.pins.inErr = false →
    exec .innum s = .next { s with
      stack := s.pins.inData :: s.stack
      pending := none
      took := s.took ++ [{ err := false, data := s.pins.inData }]
      env := s.env.afterAnswer }) ∧
  (∀ s : State, s.stack.length < s.par.stackDepth → s.pins.inValid = true → s.pins.inErr = true →
    exec .innum s = .next { s with
      run := .faulted
      fault := { code := .parseError, op := 0x26, need := 0, depth := s.stack.length }
      pending := none
      took := s.took ++ [{ err := true, data := s.pins.inData }]
      env := s.env.afterAnswer }) ∧
  (∀ s : State, s.stack.length < s.par.stackDepth → s.pins.inValid = false →
    exec .innum s = .next { s with pending := some (.read .int) }) ∧
  ∀ s : State, s.par.stackDepth ≤ s.stack.length →
    exec .innum s = .next { s with
      run := .faulted
      fault := { code := .stackOverflow, op := 0x26, need := 0, depth := s.stack.length } }

/-- R164: `~` pushes the port's 32-bit code point unchanged, and `in_err` plays no part; with a full stack StackOverflow
comes before the request; without an answer the request waits. That an answer completes the instruction at the edge of its
issuing cycle, the record `took` with the ignored level in it, and the host's list are the model's own (DESIGN CHOICE, logs
6, 9, 23, 3). -/
def Obligations.InchrPushesTheCodePoint : Prop :=
  decode 0x7E = some .inchr ∧
  (∀ s : State, s.stack.length < s.par.stackDepth → s.pins.inValid = true →
    exec .inchr s = .next { s with
      stack := s.pins.inData :: s.stack
      pending := none
      took := s.took ++ [{ err := s.pins.inErr, data := s.pins.inData }]
      env := s.env.afterAnswer }) ∧
  (∀ s : State, s.stack.length < s.par.stackDepth → s.pins.inValid = false →
    exec .inchr s = .next { s with pending := some (.read .char) }) ∧
  ∀ s : State, s.par.stackDepth ≤ s.stack.length →
    exec .inchr s = .next { s with
      run := .faulted
      fault := { code := .stackOverflow, op := 0x7E, need := 0, depth := s.stack.length } }

/-- R165: `.` pops v and sends (INT, v), its i32 bits; where the port does not accept at this edge the word is offered and
the stack waits; an empty stack raises StackUnderflow with need 1 and no transfer. That the word may go at the edge of its
issuing cycle and the record `out` are the model's own (DESIGN CHOICE, logs 6, 9), and so is that the operand stays on the
stack while the word waits (DEDUCED, log 18). -/
def Obligations.OutnumSendsTheValue : Prop :=
  decode 0x2E = some .outnum ∧
  (∀ (s : State) (v : Word) (rest : List Word), s.pins.outReady = true →
    exec .outnum { s with stack := v :: rest } =
      .next { s with stack := rest, pending := none, out := s.out ++ [{ kind := .int, word := v }] }) ∧
  (∀ (s : State) (v : Word) (rest : List Word), s.pins.outReady = false →
    exec .outnum { s with stack := v :: rest } =
      .next { s with stack := v :: rest, pending := some (.write .int v) }) ∧
  ∀ s : State, exec .outnum { s with stack := [] } = .next { s with
    stack := []
    run := .faulted
    fault := { code := .stackUnderflow, op := 0x2E, need := 1, depth := 0 } }

/-- R166: `,` pops v and sends (CHAR, v[7:0] zero-extended): the word is v modulo 256; the other cases as for `.`.
That the word may go at the edge of its issuing cycle and the record `out` are the model's own (DESIGN CHOICE, logs 6, 9), and
so is that the operand stays on the stack while the word waits (DEDUCED, log 18). -/
def Obligations.OutchrSendsTheLowByte : Prop :=
  decode 0x2C = some .outchr ∧
  (∀ (s : State) (v : Word) (rest : List Word), s.pins.outReady = true →
    exec .outchr { s with stack := v :: rest } =
      .next { s with stack := rest, pending := none, out := s.out ++ [{ kind := .char, word := v &&& 0xFF }] }) ∧
  (∀ (s : State) (v : Word) (rest : List Word), s.pins.outReady = false →
    exec .outchr { s with stack := v :: rest } =
      .next { s with stack := v :: rest, pending := some (.write .char (v &&& 0xFF)) }) ∧
  ∀ s : State, exec .outchr { s with stack := [] } = .next { s with
    stack := []
    run := .faulted
    fault := { code := .stackUnderflow, op := 0x2C, need := 1, depth := 0 } }

/-- R160, R162: while a request waits and the port stays silent, an edge changes no state of the core: the wires go on
showing the request, with its kind and for a write its word, and there is no timeout. -/
def Obligations.WaitingTransferHoldsTheCore : Prop :=
  ∀ (s : State) (q : Request), s.run = .run → s.pending = some q → s.pins.rst = false →
    (match q with | .read _ => s.pins.inValid = false | .write _ _ => s.pins.outReady = false) →
    step s = .next { s with env := { s.env with edges := s.env.edges.tail } } ∧
    (match q with
      | .read k => s.inReq = true ∧ s.inKind = some (match k with | .int => 0 | .char => 1) ∧ s.outValid = false
      | .write k v => s.outValid = true ∧ s.outKind = some (match k with | .int => 0 | .char => 1)
          ∧ s.outData = some v ∧ s.inReq = false)

/-- R160, R161: at the edge at which the port answers or accepts, a waiting request completes: the answer is pushed, or
ParseError is raised for `&`, or the offered word is transferred and its operand popped; the pc does not move. -/
def Obligations.WaitingTransferCompletes : Prop :=
  ∀ s : State, s.run = .run → s.pins.rst = false →
    (∀ k, s.pending = some (.read k) → s.pins.inValid = true → (k = .char ∨ s.pins.inErr = false) →
      step s = .next { s with
        stack := s.pins.inData :: s.stack
        pending := none
        took := s.took ++ [{ err := s.pins.inErr, data := s.pins.inData }]
        env := s.env.afterAnswer.afterEdge }) ∧
    (s.pending = some (.read .int) → s.pins.inValid = true → s.pins.inErr = true →
      step s = .next { s with
        run := .faulted
        fault := { code := .parseError, op := 0x26, need := 0, depth := s.stack.length }
        pending := none
        took := s.took ++ [{ err := true, data := s.pins.inData }]
        env := s.env.afterAnswer.afterEdge }) ∧
    (∀ k v x rest, s.pending = some (.write k v) → s.pins.outReady = true → s.stack = x :: rest →
      step s = .next { s with
        stack := rest
        pending := none
        out := s.out ++ [{ kind := k, word := v }]
        env := s.env.afterEdge })

/-- R162: an execution of `&` or `~` takes at most one answer, of `.` or `,` sends at most one word, and no other
instruction touches the port. -/
def Obligations.OnlyIoInstructionsTouchThePort : Prop :=
  ∀ (i : Instr) (s : State), ∃ t, exec i s = .next t ∧
    (i ∈ [Instr.innum, .inchr] → t.out = s.out ∧
      (t.took = s.took ∧ t.stack = s.stack ∨ ∃ a, t.took = s.took ++ [a] ∧ (t.stack = a.data :: s.stack ∨ t.run = .faulted))) ∧
    (i ∈ [Instr.outnum, .outchr] → t.took = s.took ∧
      (t.out = s.out ∧ t.stack = s.stack ∨ ∃ w, t.out = s.out ++ [w] ∧ t.stack = s.stack.tail)) ∧
    (i ∉ [Instr.innum, .inchr, .outnum, .outchr] → t.out = s.out ∧ t.took = s.took ∧ t.pending = s.pending ∧
      t.env.answers = s.env.answers)

/-! ### Arithmetic, comparison, not (44_arithmetic.md) -/

/-- R180: `+` replaces x and y (y on top) by wrap32(x + y), the sum of 32-bit words; fewer than two operands raise
StackUnderflow with need 2. -/
def Obligations.AddPushesTheWrappedSum : Prop :=
  decode 0x2B = some .add ∧
  (∀ (s : State) (x y : Word) (rest : List Word),
    exec .add { s with stack := y :: x :: rest } = .next { s with stack := (x + y) :: rest }) ∧
  ∀ s : State, s.stack.length < 2 → exec .add s = .next { s with
    run := .faulted
    fault := { code := .stackUnderflow, op := 0x2B, need := 2, depth := s.stack.length } }

/-- R181: `-` replaces x and y by wrap32(x - y); y is the top. -/
def Obligations.SubPushesTheWrappedDifference : Prop :=
  decode 0x2D = some .sub ∧
  (∀ (s : State) (x y : Word) (rest : List Word),
    exec .sub { s with stack := y :: x :: rest } = .next { s with stack := (x - y) :: rest }) ∧
  ∀ s : State, s.stack.length < 2 → exec .sub s = .next { s with
    run := .faulted
    fault := { code := .stackUnderflow, op := 0x2D, need := 2, depth := s.stack.length } }

/-- R182: `*` replaces x and y by wrap32(x * y), the low 32 bits of the product. -/
def Obligations.MulPushesTheWrappedProduct : Prop :=
  decode 0x2A = some .mul ∧
  (∀ (s : State) (x y : Word) (rest : List Word),
    exec .mul { s with stack := y :: x :: rest } = .next { s with stack := (x * y) :: rest }) ∧
  ∀ s : State, s.stack.length < 2 → exec .mul s = .next { s with
    run := .faulted
    fault := { code := .stackUnderflow, op := 0x2A, need := 2, depth := s.stack.length } }

/-- R183: `/` replaces x and y by the quotient truncated toward zero and wrapped (signed division of words), for y other
than 0; a divisor 0 raises DivisionByZero, and the need check comes first. -/
def Obligations.DivPushesTheTruncatedQuotient : Prop :=
  decode 0x2F = some .div ∧
  (∀ (s : State) (x y : Word) (rest : List Word), y ≠ 0 →
    exec .div { s with stack := y :: x :: rest } = .next { s with stack := x.sdiv y :: rest }) ∧
  (∀ (s : State) (x : Word) (rest : List Word),
    exec .div { s with stack := 0 :: x :: rest } = .next { s with
      stack := 0 :: x :: rest
      run := .faulted
      fault := { code := .divisionByZero, op := 0x2F, need := 0, depth := rest.length + 2 } }) ∧
  ∀ s : State, s.stack.length < 2 → exec .div s = .next { s with
    run := .faulted
    fault := { code := .stackUnderflow, op := 0x2F, need := 2, depth := s.stack.length } }

/-- R185: `%` replaces x and y by the remainder with the sign of x (signed remainder of words), for y other than 0; a
divisor 0 raises DivisionByZero, and the need check comes first. -/
def Obligations.ModPushesTheRemainder : Prop :=
  decode 0x25 = some .mod ∧
  (∀ (s : State) (x y : Word) (rest : List Word), y ≠ 0 →
    exec .mod { s with stack := y :: x :: rest } = .next { s with stack := x.srem y :: rest }) ∧
  (∀ (s : State) (x : Word) (rest : List Word),
    exec .mod { s with stack := 0 :: x :: rest } = .next { s with
      stack := 0 :: x :: rest
      run := .faulted
      fault := { code := .divisionByZero, op := 0x25, need := 0, depth := rest.length + 2 } }) ∧
  ∀ s : State, s.stack.length < 2 → exec .mod s = .next { s with
    run := .faulted
    fault := { code := .stackUnderflow, op := 0x25, need := 2, depth := s.stack.length } }

/-- R188, R184: arithmetic on i32 values. `+`, `-` and `*` leave the exact result reduced to -2^31..2^31-1 modulo 2^32. For
y other than 0, `/` leaves q and `%` leaves r with the sign of x (or 0) and |r| < |y|, and x = y * q + r on integers, but
for the one quotient that leaves the range: -2^31 / -1 gives -2^31, with remainder 0. For y = 0 both raise DivisionByZero
and commit nothing. -/
def Obligations.ArithmeticLawsOnIntegers : Prop :=
  (∀ (s : State) (x y : Word) (rest : List Word), ∃ a b c : Word,
    exec .add { s with stack := y :: x :: rest } = .next { s with stack := a :: rest } ∧
    exec .sub { s with stack := y :: x :: rest } = .next { s with stack := b :: rest } ∧
    exec .mul { s with stack := y :: x :: rest } = .next { s with stack := c :: rest } ∧
    a.toInt = (x.toInt + y.toInt).bmod (2 ^ 32) ∧ b.toInt = (x.toInt - y.toInt).bmod (2 ^ 32) ∧
    c.toInt = (x.toInt * y.toInt).bmod (2 ^ 32)) ∧
  (∀ (s : State) (x y : Word) (rest : List Word), y ≠ 0 →
    ∃ q r : Word,
      exec .div { s with stack := y :: x :: rest } = .next { s with stack := q :: rest } ∧
      exec .mod { s with stack := y :: x :: rest } = .next { s with stack := r :: rest } ∧
      r.toInt.natAbs < y.toInt.natAbs ∧ (r.toInt ≠ 0 → (r.toInt < 0 ↔ x.toInt < 0)) ∧
      (¬(x.toInt = -2 ^ 31 ∧ y.toInt = -1) → x.toInt = y.toInt * q.toInt + r.toInt) ∧
      (x.toInt = -2 ^ 31 ∧ y.toInt = -1 → q.toInt = -2 ^ 31 ∧ r.toInt = 0)) ∧
  ∀ row ∈ ([(0x2F, .div), (0x25, .mod)] : List (Byte × Instr)), ∀ (s : State) (x : Word) (rest : List Word),
    exec row.2 { s with stack := 0 :: x :: rest } = .next { s with
      stack := 0 :: x :: rest
      run := .faulted
      fault := { code := .divisionByZero, op := row.1, need := 0, depth := rest.length + 2 } }

/-- R186: GT pushes 1 if x > y as signed integers, else 0. -/
def Obligations.GtPushesTheSignedComparison : Prop :=
  decode 0x60 = some .gt ∧
  (∀ (s : State) (x y : Word) (rest : List Word),
    exec .gt { s with stack := y :: x :: rest } = .next { s with stack := (if y.slt x then 1 else 0) :: rest }) ∧
  ∀ s : State, s.stack.length < 2 → exec .gt s = .next { s with
    run := .faulted
    fault := { code := .stackUnderflow, op := 0x60, need := 2, depth := s.stack.length } }

/-- R187: `!` pushes 1 if x = 0, else 0. -/
def Obligations.NotPushesWhetherZero : Prop :=
  decode 0x21 = some .not ∧
  (∀ (s : State) (x : Word) (rest : List Word),
    exec .not { s with stack := x :: rest } = .next { s with stack := (if x = 0 then 1 else 0) :: rest }) ∧
  ∀ s : State, exec .not { s with stack := [] } = .next { s with
    stack := []
    run := .faulted
    fault := { code := .stackUnderflow, op := 0x21, need := 1, depth := 0 } }

/-! ### Stack manipulation (45_stack.md) -/

/-- R200: `:` copies the top; an empty stack raises StackUnderflow with need 1, a full one StackOverflow. -/
def Obligations.DupCopiesTheTop : Prop :=
  decode 0x3A = some .dup ∧
  (∀ (s : State) (v : Word) (rest : List Word), rest.length + 1 < s.par.stackDepth →
    exec .dup { s with stack := v :: rest } = .next { s with stack := v :: v :: rest }) ∧
  (∀ (s : State) (v : Word) (rest : List Word), s.par.stackDepth ≤ rest.length + 1 →
    exec .dup { s with stack := v :: rest } = .next { s with
      stack := v :: rest
      run := .faulted
      fault := { code := .stackOverflow, op := 0x3A, need := 0, depth := rest.length + 1 } }) ∧
  ∀ s : State, exec .dup { s with stack := [] } = .next { s with
    stack := []
    run := .faulted
    fault := { code := .stackUnderflow, op := 0x3A, need := 1, depth := 0 } }

/-- R201: `\` exchanges the two top entries; fewer than two raise StackUnderflow with need 2. -/
def Obligations.SwapExchangesTheTopTwo : Prop :=
  decode 0x5C = some .swap ∧
  (∀ (s : State) (x y : Word) (rest : List Word),
    exec .swap { s with stack := y :: x :: rest } = .next { s with stack := x :: y :: rest }) ∧
  ∀ s : State, s.stack.length < 2 → exec .swap s = .next { s with
    run := .faulted
    fault := { code := .stackUnderflow, op := 0x5C, need := 2, depth := s.stack.length } }

/-- R202: `$` discards the top; an empty stack raises StackUnderflow with need 1. -/
def Obligations.DropDiscardsTheTop : Prop :=
  decode 0x24 = some .drop ∧
  (∀ (s : State) (v : Word) (rest : List Word),
    exec .drop { s with stack := v :: rest } = .next { s with stack := rest }) ∧
  ∀ s : State, exec .drop { s with stack := [] } = .next { s with
    stack := []
    run := .faulted
    fault := { code := .stackUnderflow, op := 0x24, need := 1, depth := 0 } }

/-! ### Grid get and put (46_grid_access.md) -/

/-- R210: `g` replaces row and column (row on top) by the cell's byte, zero-extended; a coordinate outside the grid raises
OutOfBounds with nothing popped, after the need check. -/
def Obligations.GetPushesTheCell : Prop :=
  decode 0x67 = some .get ∧
  (∀ (s : State) (r c : Word) (rest : List Word), onGrid s.par r c →
    exec .get { s with stack := r :: c :: rest } =
      .next { s with stack := (s.readCell ⟨r.toInt.toNat, c.toInt.toNat⟩).setWidth 32 :: rest }) ∧
  (∀ (s : State) (r c : Word) (rest : List Word), ¬onGrid s.par r c →
    exec .get { s with stack := r :: c :: rest } = .next { s with
      stack := r :: c :: rest
      run := .faulted
      fault := { code := .outOfBounds, op := 0x67, need := 0, depth := rest.length + 2 } }) ∧
  ∀ s : State, s.stack.length < 2 → exec .get s = .next { s with
    run := .faulted
    fault := { code := .stackUnderflow, op := 0x67, need := 2, depth := s.stack.length } }

/-- R211: `p` pops row, column and value and writes the value's low 8 bits to that cell, and to no other; a coordinate
outside the grid raises OutOfBounds, and then, under the FAULT policy, a value outside 0..255 raises PutValueRange, each
with nothing popped and nothing written. That the grid is a list, canonical before (in every reachable state) and after, is
the model's own form (DESIGN CHOICE, log 11). -/
def Obligations.PutWritesTheCell : Prop :=
  decode 0x70 = some .put ∧
  (∀ (s : State) (r c v : Word) (rest : List Word), Memory.wf s.par s.grid → onGrid s.par r c →
    (s.par.putPolicy = .truncate ∨ 0 ≤ v.toInt ∧ v.toInt ≤ 255) →
    ∃ t : State, exec .put { s with stack := r :: c :: v :: rest } = .next t ∧
      t = { s with stack := rest, grid := t.grid } ∧ Memory.wf t.par t.grid ∧
      t.readCell ⟨r.toInt.toNat, c.toInt.toNat⟩ = v.setWidth 8 ∧
      ∀ a : Coord, a.valid s.par → a ≠ ⟨r.toInt.toNat, c.toInt.toNat⟩ → t.readCell a = s.readCell a) ∧
  (∀ (s : State) (r c v : Word) (rest : List Word), ¬onGrid s.par r c →
    exec .put { s with stack := r :: c :: v :: rest } = .next { s with
      stack := r :: c :: v :: rest
      run := .faulted
      fault := { code := .outOfBounds, op := 0x70, need := 0, depth := rest.length + 3 } }) ∧
  (∀ (s : State) (r c v : Word) (rest : List Word), onGrid s.par r c → s.par.putPolicy = .fault →
    v.toInt < 0 ∨ 255 < v.toInt →
    exec .put { s with stack := r :: c :: v :: rest } = .next { s with
      stack := r :: c :: v :: rest
      run := .faulted
      fault := { code := .putValueRange, op := 0x70, need := 0, depth := rest.length + 3 } }) ∧
  ∀ s : State, s.stack.length < 3 → exec .put s = .next { s with
    run := .faulted
    fault := { code := .stackUnderflow, op := 0x70, need := 3, depth := s.stack.length } }

/-- R73: instruction fetch is coherent with `p`. After a `p` that raised no fault, the next step t that lands on the written
cell, the very next one (t = u.afterEdge) or a later one with the cell not written since, sees the byte just written: outside
string mode it executes the instruction the byte stands for or raises UnknownInstruction with it; in string mode it pushes
it, or ends the literal if it is the quote. (The schedule of the wires is the model's form, log 3.) -/
def Obligations.PutIsSeenByTheNextFetch : Prop :=
  ∀ (s u t : State) (r c v : Word) (rest : List Word), s.Inv → s.stack = r :: c :: v :: rest → onGrid s.par r c →
    exec .put s = .next u → u.run = .run →
    let a : Coord := ⟨r.toInt.toNat, c.toInt.toNat⟩
    let b : Byte := v.setWidth 8
    t.par = u.par → t.readCell a = u.readCell a → t.Stepping → advance t.par t.dir t.pc = a →
    (t.sm = false → ∀ i, decode b = some i → ∃ w, exec i { t with pc := a } = .next w ∧
      step t = .next { w with env := { w.env with edges := w.env.edges.tail } }) ∧
    (t.sm = false → decode b = none → step t = .next { t with
      pc := a
      run := .faulted
      fault := { code := .unknownInstruction, op := b, need := 0, depth := t.stack.length }
      env := { t.env with edges := t.env.edges.tail } }) ∧
    (t.sm = true → b ≠ 0x22 → t.stack.length < t.par.stackDepth → step t = .next { t with
      pc := a
      stack := b.setWidth 32 :: t.stack
      env := { t.env with edges := t.env.edges.tail } }) ∧
    (t.sm = true → b ≠ 0x22 → t.par.stackDepth ≤ t.stack.length → step t = .next { t with
      pc := a
      run := .faulted
      fault := { code := .stackOverflow, op := b, need := 0, depth := t.stack.length }
      env := { t.env with edges := t.env.edges.tail } }) ∧
    (t.sm = true → b = 0x22 → step t = .next { t with
      pc := a
      sm := false
      env := { t.env with edges := t.env.edges.tail } })

/-! ### Faults (60_exceptions.md) -/

/-- R231: with fewer operands than its need count an instruction raises StackUnderflow before any pop, and the record holds
the instruction byte, the need count and the depth found. -/
def Obligations.UnderflowRecordsTheNeedCount : Prop :=
  (∀ i ∈ [Instr.hif, .vif, .outnum, .outchr, .not, .dup, .drop], pops i = 1) ∧
  (∀ i ∈ [Instr.add, .sub, .mul, .div, .mod, .gt, .swap, .get], pops i = 2) ∧ pops .put = 3 ∧
  ∀ (i : Instr) (s : State), s.stack.length < pops i →
    exec i s = .next { s with
      run := .faulted
      fault := { code := .stackUnderflow, op := encode i, need := BitVec.ofNat 2 (pops i), depth := s.stack.length } }

/-- R238: a step raises at most one fault, the first check that fails: an illegal byte before all others, then for an
instruction the order of `firstFault`. No instruction with an operand check puts more than it takes, so its room check never
fails. For `&`, that ParseError is raised at the edge of the issuing cycle where `in_valid` and `in_err` are 1 there is the
model's own (DESIGN CHOICE, log 6). -/
def Obligations.FirstFailingCheckIsRaised : Prop :=
  (∀ (i : Instr) (s : State), s.run = .run → s.fault = FaultRecord.clear → s.stack.length ≤ s.par.stackDepth →
    ∃ t, exec i s = .next t ∧ t.fault.code = firstFault i s ∧ (t.run = .faulted ↔ firstFault i s ≠ .none)) ∧
  (∀ (s : State) (b : Byte), decode b = none → ∃ t, execute b s = .next t ∧ t.fault.code = .unknownInstruction) ∧
  ∀ i ∈ [Instr.div, .mod, .get, .put], pushes i ≤ pops i

/-- R240: faults are precise. Where a step of a running core raises a fault, the record names the fault, the byte under the
pc and the depth; the pc is on the faulting cell, the one the step advanced onto (or waited on); the stack, the grid, `dir`
and `sm` are as before the step, and no word was emitted (`out`, the record of them, is the model's own: DESIGN CHOICE, log 9;
that a ParseError may end the issuing cycle or a wait is log 6). -/
def Obligations.FaultsArePrecise : Prop :=
  ∀ s t : State, s.Inv → s.run = .run → step s = .next t → t.run = .faulted →
    t.pc = (if s.pending = none then advance s.par s.dir s.pc else s.pc) ∧
    t.fault.code ≠ .none ∧ t.fault.op = s.readCell t.pc ∧ t.fault.depth = s.stack.length ∧
    (t.fault.code ≠ .stackUnderflow → t.fault.need = 0) ∧
    t.stack = s.stack ∧ t.grid = s.grid ∧ t.dir = s.dir ∧ t.sm = s.sm ∧ t.out = s.out ∧ t.par = s.par

/-- R241: there is no return from a fault; R29, R127: none from a halt. A run that has ended, FAULTED or HALTED, stays as it is
for any number of edges without a reset, whatever else the host drives (R249: every state element keeps its value; that such
an edge answers a next state with the whole core unchanged is DEDUCED, log 13; the schedule is the model's form, log 3). -/
def Obligations.EndedRunStaysEnded : Prop :=
  ∀ (n : Nat) (s : State), s.run = .faulted ∨ s.run = .halted → (∀ p ∈ s.env.edges.take n, p.rst = false) →
    Sys2Proof.core.run n s = .next { s with env := { s.env with edges := s.env.edges.drop n } }

/-- The encodings of the status registers: `dir` (10_state.md R25), `run` (R28) and `fcode` (60_exceptions.md R230). -/
def Obligations.StatusEncodings : Prop :=
  (Dir.right.code = 0b00 ∧ Dir.down.code = 0b01 ∧ Dir.left.code = 0b10 ∧ Dir.up.code = 0b11) ∧
  (∀ d : Dir, Dir.ofCode d.code = d) ∧
  (RunState.idle.code = 0b00 ∧ RunState.run.code = 0b01 ∧ RunState.halted.code = 0b10 ∧ RunState.faulted.code = 0b11) ∧
  (FaultCode.none.code = 0 ∧ FaultCode.stackUnderflow.code = 1 ∧ FaultCode.outOfBounds.code = 2 ∧
    FaultCode.parseError.code = 3 ∧ FaultCode.unknownInstruction.code = 4 ∧ FaultCode.divisionByZero.code = 5 ∧
    FaultCode.stackOverflow.code = 6 ∧ FaultCode.putValueRange.code = 7)

/-! ### Reset, loading, start (70_reset_and_hazards.md) -/

/-- R261: the reset value of every state element, at the spec's default parameters (00_scope.md R7). -/
def Obligations.ResetValues : Prop :=
  (State.reset.par.width = 80 ∧ State.reset.par.height = 25 ∧ State.reset.par.blank = 0x20 ∧
    State.reset.par.stackDepth = 1024 ∧ State.reset.par.putPolicy = .truncate) ∧
  (∀ c : Coord, State.reset.readCell c = 0x20) ∧ State.reset.stack = [] ∧ State.reset.depth = 0 ∧
  (∀ i, State.reset.stk i = none) ∧ State.reset.pc = ⟨0, 79⟩ ∧ State.reset.dir = .right ∧ State.reset.sm = false ∧
  State.reset.run = .idle ∧ State.reset.fault = { code := .none, op := 0, need := 0, depth := 0 } ∧
  State.reset.pending = none

/-- R260: `rst` at an edge, whatever the run state and whether or not a transfer is pending, puts every element of the core
at its reset value: every cell reads BLANK, no request is driven and no word offered. While `rst_busy` is 1 the load port and
`start` are ignored. (How long it is 1, the parameter clearEdges, and that every cell reads BLANK in the very state after the
reset edge, also while `rst_busy` is still 1, are the model's own: DESIGN CHOICE, log 7; so is the host's side, log 3.) -/
def Obligations.ResetFromAnyState : Prop :=
  (∀ s : State, s.pins.rst = true → ∃ t, step s = .next t ∧
    t.run = .idle ∧ t.stack = [] ∧ t.pc = ⟨0, s.par.width - 1⟩ ∧ t.dir = .right ∧ t.sm = false ∧
    t.fault = { code := .none, op := 0, need := 0, depth := 0 } ∧ (∀ c, t.readCell c = s.par.blank) ∧
    t.pending = none ∧ t.inReq = false ∧ t.outValid = false ∧ t.par = s.par ∧
    t.env = { s.env with edges := s.env.edges.tail }) ∧
  ∀ s : State, s.pins.rst = false → s.run = .idle → s.rstBusy = true →
    ∃ t, step s = .next t ∧ t = { s with busy := t.busy, env := { s.env with edges := s.env.edges.tail } }

/-- R263: in IDLE, with no reset and `rst_busy` 0, `ld_we` writes `ld_data` to the cell (ld_row, ld_col) if it lies in the
grid and otherwise nothing; in any other run state the load port makes no difference to an edge. That
the grid is a list, canonical before and after, is the model's own form (DESIGN CHOICE, log 11), and so is the schedule of the
wires (log 3). -/
def Obligations.LoadPortWritesInIdleOnly : Prop :=
  (∀ s : State, Memory.wf s.par s.grid → s.pins.rst = false → s.run = .idle → s.busy = 0 → s.pins.ldWe = true →
    ∃ t, step s = .next t ∧ Memory.wf t.par t.grid ∧
      ∀ a : Coord, a.valid s.par → t.readCell a =
        if a = ⟨s.pins.ldRow, s.pins.ldCol⟩ then s.pins.ldData else s.readCell a) ∧
  (∀ s : State, s.pins.rst = false → s.run = .idle → s.busy = 0 →
    (s.pins.ldWe = false ∨ ¬Coord.valid s.par ⟨s.pins.ldRow, s.pins.ldCol⟩) → ∃ t, step s = .next t ∧ t.grid = s.grid) ∧
  ∀ (s : State) (p : Pins) (l : List Pins) (w : Bool) (r c : Nat) (b : Byte), s.run ≠ .idle → s.env.edges = p :: l →
    let q := { p with ldWe := w, ldRow := r, ldCol := c, ldData := b }
    step { s with env := { s.env with edges := q :: l } } = step s

/-- R266, R262: in IDLE, with no reset and `rst_busy` 0, `start` begins the run, and with the state IDLE has then the first
step's advance lands on (0, 0); without `start` the core stays in IDLE. In any other state `start` makes no difference to an
edge. That an edge in IDLE answers a next state with all the rest of the core unchanged is R29, R249 and DEDUCED, log 13; that
`start` acts beside `ld_we` is DEDUCED, log 8; the host's schedule is the model's form (DESIGN CHOICE, log 3). -/
def Obligations.StartBeginsTheRun : Prop :=
  (∀ s : State, s.Inv → s.pins.rst = false → s.run = .idle → s.busy = 0 →
    ∃ t, step s = .next t ∧ t = { s with run := t.run, grid := t.grid, env := { s.env with edges := s.env.edges.tail } } ∧
      (t.run = if s.pins.start then .run else .idle) ∧ advance t.par t.dir t.pc = ⟨0, 0⟩) ∧
  ∀ (s : State) (p : Pins) (l : List Pins) (g : Bool), s.run ≠ .idle → s.env.edges = p :: l →
    step { s with env := { s.env with edges := { p with start := g } :: l } } = step s

/-- R29: the run-state transitions, and no others: `rst` to IDLE; IDLE to RUN by `start`; RUN to HALTED by an `@` the step
lands on outside string mode; RUN to FAULTED by a fault. In IDLE, HALTED and FAULTED no step executes: the pc, the stack,
`dir`, `sm` and the fault record stay, and in HALTED and FAULTED all of the core (R249; DEDUCED, log 13). -/
def Obligations.RunStateTransitions : Prop :=
  ∀ s t : State, s.Inv → step s = .next t →
    (s.pins.rst = true ∧ t.run = .idle) ∨
    (s.pins.rst = false ∧
      ((s.run = .idle ∧ (t.run = .idle ∨ t.run = .run ∧ s.pins.start = true ∧ s.rstBusy = false)) ∨
        (s.run = .run ∧ (t.run = .run ∨
          (t.run = .halted ∧ s.pending = none ∧ s.sm = false ∧ s.readCell (advance s.par s.dir s.pc) = 0x40) ∨
          (t.run = .faulted ∧ t.fault.code ≠ .none))) ∨
        (s.run = .halted ∧ t.run = .halted) ∨ (s.run = .faulted ∧ t.run = .faulted)) ∧
      (s.run ≠ .run → t.pc = s.pc ∧ t.stack = s.stack ∧ t.dir = s.dir ∧ t.sm = s.sm ∧ t.fault = s.fault) ∧
      (s.run = .halted ∨ s.run = .faulted → t = { s with env := t.env }))

/-- R264, R265: the boot order. After a reset, waiting while `rst_busy` is 1, writing the program text through the load port
and asserting `start`, the core is in RUN and the grid holds the text; all else is as reset left it. The text is given by its
lines, byte strings without LF joined by LFs, and every text is such a one. Of line i < H, without the one CR at its end if
there is one, byte j < W stands in cell (i, j), and every cell without such a byte is BLANK. (How long `rst_busy` lasts, the
one write an edge, and that n LFs make n + 1 lines are the model's own: DESIGN CHOICE, logs 7, 16, DEDUCED, log 20.) -/
def Obligations.BootLoadsTheProgramText : Prop :=
  (∀ text : List Byte, ∃ lines : List (List Byte),
    lines ≠ [] ∧ (∀ l ∈ lines, (0x0A : Byte) ∉ l) ∧ text = List.intercalate [0x0A] lines) ∧
  ∀ (p : Params) (e : Env) (lines : List (List Byte)), p.wf = true → lines ≠ [] → (∀ l ∈ lines, (0x0A : Byte) ∉ l) →
    let text := List.intercalate [0x0A] lines
    ∃ g : List Host.Cell, Sys2Proof.core.run (bootEdges p text).length (State.boot p e text) =
        .next { State.resetWith p { e with edges := [] } with grid := g, run := .run, busy := 0 } ∧
      Memory.wf p g ∧
      (∀ (c : Coord) (l : List Byte), c.valid p → lines[c.row]? = some (l ++ [0x0D]) →
        Memory.read p.blank g (c.key p) = l[c.col]?.getD p.blank) ∧
      (∀ (c : Coord) (l : List Byte), c.valid p → lines[c.row]? = some l → (∀ k, l ≠ k ++ [0x0D]) →
        Memory.read p.blank g (c.key p) = l[c.col]?.getD p.blank) ∧
      ∀ c : Coord, c.valid p → lines[c.row]? = none → Memory.read p.blank g (c.key p) = p.blank

/-! ### Invariants and whole-machine rules -/

/-- Every step of a state that meets the invariant answers a next state, and that state meets it. The invariant gathers
what the spec says of every state: the pc is always a valid coordinate (R24), the depth never exceeds STACK_DEPTH (R22), the
grid's list is canonical, a waiting request stands on its instruction (R26, R32), IDLE is as reset left it but for the grid
(R29), and the fault record is clear outside FAULTED and tells the truth in it (R31, R240). -/
def Obligations.StepKeepsTheInvariant : Prop :=
  ∀ s : State, s.Inv → ∃ t, step s = .next t ∧ t.Inv

/-- The state after reset meets the invariant, for the default parameters and for any others within their bounds. -/
def Obligations.ResetMeetsTheInvariant : Prop :=
  State.reset.Inv ∧ ∀ (p : Params) (e : Env), p.wf = true → (State.resetWith p e).Inv

/-- Who writes what (10_state.md R21, R24, R25, R27, R28): an instruction that raises no fault changes a register or the
grid only if the spec names it as a writer, and no instruction changes the parameters or `rst_busy`. -/
def Obligations.EachRegisterHasItsWriters : Prop :=
  ∀ (i : Instr) (s : State), ∃ t, exec i s = .next t ∧ t.par = s.par ∧ t.busy = s.busy ∧
    (i ≠ .put → t.grid = s.grid) ∧
    (i ∉ [Instr.up, .down, .left, .right, .hif, .vif, .rand] → t.dir = s.dir) ∧
    (i ≠ .str → t.sm = s.sm) ∧
    (i ≠ .halt → t.run ≠ .faulted → t.run = s.run) ∧
    (t.run ≠ .faulted → t.fault = s.fault) ∧
    (i ∈ [Instr.nop, .str, .bridge, .left, .right, .up, .down, .rand, .halt] → t.stack = s.stack)

/-- The pops and pushes columns of 30_encoding.md R81 count what an instruction takes and puts: an instruction that raises no
fault and leaves no transfer waiting changes the depth by exactly pushes - pops, and had its operands. -/
def Obligations.DepthChangesByTheTable : Prop :=
  ∀ (i : Instr) (s t : State), s.run = .run → s.pending = none → exec i s = .next t → t.run ≠ .faulted →
    t.pending = none → pops i ≤ s.depth ∧ t.depth + pops i = s.depth + pushes i

/-- A step changes at most one cell of the grid, but for reset (20_memory.md R61, R64): a cell that changes is the load
port's in IDLE, or the one whose row and column a `p` popped, and it holds the byte that `ld_data`, or the low 8 bits of the
value popped, gave it. -/
def Obligations.GridChangesOneCellAtATime : Prop :=
  ∀ (s t : State) (a : Coord), s.Inv → step s = .next t → s.pins.rst = false → a.valid s.par →
    t.readCell a ≠ s.readCell a →
    ((s.run = .idle ∧ s.pins.ldWe = true ∧ a = ⟨s.pins.ldRow, s.pins.ldCol⟩ ∧ t.readCell a = s.pins.ldData) ∨
      (s.Stepping ∧ s.sm = false ∧ s.readCell (advance s.par s.dir s.pc) = 0x70 ∧
        ∃ r c v rest, s.stack = r :: c :: v :: rest ∧ gridCoord s.par r c = some a ∧
          a = ⟨r.toInt.toNat, c.toInt.toNat⟩ ∧ t.readCell a = v.setWidth 8)) ∧
    ∀ b : Coord, b.valid s.par → b ≠ a → t.readCell b = s.readCell b

/-- R20: nothing else influences a step. Two states that differ only in the record of what the run has exchanged with the
port (`out`, `took`, the model's own, log 9) step to states that differ only in that record. -/
def Obligations.PortRecordDoesNotInfluence : Prop :=
  ∀ (s : State) (o : List OutWord) (k : List Answer) (t : State), step s = .next t →
    ∃ t', step { s with out := o, took := k } = .next t' ∧ t = { t' with out := t.out, took := t.took }

/-- The registers fit their widths (10_state.md R22, R24, R31): under the invariant the bits of pc.row, pc.col, depth and
fdepth give back their values, and STK[depth-1] is the top while no entry at or above the depth holds a value (R22, R23). -/
def Obligations.RegistersFitTheirWidths : Prop :=
  ∀ s : State, s.Inv →
    s.pcRowPort.toNat = s.pc.row ∧ s.pcColPort.toNat = s.pc.col ∧ s.depthPort.toNat = s.depth ∧
    s.faultDepthPort.toNat = s.fault.depth ∧
    (∀ v rest, s.stack = v :: rest → s.stk (s.depth - 1) = some v) ∧ ∀ i, s.depth ≤ i → s.stk i = none

/-! ### The wires of the I/O Port (10_state.md R36, 43_io.md R160, R161) -/

/-- R36, R160, R161: the core drives a request from the cycle in which its instruction is about to execute, its stack checks
passed: `in_req` and `in_kind` for `&` and `~`, `out_valid`, `out_kind` and `out_data` for `.` and `,`. It drives none for
any other byte, where a check fails, in string mode and outside RUN. (That this cycle may also be the one of the transfer, and
that the pc register then still shows the cell before, are the model's own: DESIGN CHOICE, logs 6, 26.) -/
def Obligations.RequestShowsFromItsIssuingCycle : Prop :=
  (∀ s : State, s.Stepping → s.sm = false → (advance s.par s.dir s.pc).valid s.par →
    let b := s.readCell (advance s.par s.dir s.pc)
    (b = 0x26 → s.stack.length < s.par.stackDepth → s.inReq = true ∧ s.inKind = some 0 ∧ s.outValid = false) ∧
    (b = 0x7E → s.stack.length < s.par.stackDepth → s.inReq = true ∧ s.inKind = some 1 ∧ s.outValid = false) ∧
    (∀ v rest, b = 0x2E → s.stack = v :: rest →
      s.outValid = true ∧ s.outKind = some 0 ∧ s.outData = some v ∧ s.inReq = false) ∧
    (∀ v rest, b = 0x2C → s.stack = v :: rest →
      s.outValid = true ∧ s.outKind = some 1 ∧ s.outData = some (v &&& 0xFF) ∧ s.inReq = false) ∧
    (b ∉ ([0x26, 0x7E, 0x2E, 0x2C] : List Byte) ∨ (b = 0x26 ∨ b = 0x7E) ∧ s.par.stackDepth ≤ s.stack.length ∨
        (b = 0x2E ∨ b = 0x2C) ∧ s.stack = [] →
      s.inReq = false ∧ s.outValid = false)) ∧
  (∀ s : State, s.Stepping → s.sm = true → s.inReq = false ∧ s.outValid = false) ∧
  ∀ s : State, s.run ≠ .run → s.inReq = false ∧ s.outValid = false

/-- R160, R161: the port acts on a shown request only. `in_valid` with `in_req` 0, and `out_ready` with `out_valid` 0, make
no difference to an edge. An answer is taken exactly at an edge with `in_req` and `in_valid` 1, the shown word is transferred
exactly at an edge with `out_valid` and `out_ready` 1, and a request that is not met at an edge shows unchanged after it.
(`took` and `out` are the model's own record, log 9, and the schedule its form, log 3; which cycle issues a request, and that
one may follow another with no cycle between them, are its choices: DESIGN CHOICE, logs 6, 27.) -/
def Obligations.PortActsOnAShownRequestOnly : Prop :=
  (∀ (s : State) (p : Pins) (l : List Pins) (v e : Bool) (d : Word), s.env.edges = p :: l → s.inReq = false →
    step { s with env := { s.env with edges := { p with inValid := v, inErr := e, inData := d } :: l } } = step s) ∧
  (∀ (s : State) (p : Pins) (l : List Pins) (r : Bool), s.env.edges = p :: l → s.outValid = false →
    step { s with env := { s.env with edges := { p with outReady := r } :: l } } = step s) ∧
  ∀ s t : State, step s = .next t → s.pins.rst = false →
    (s.inReq = false ∨ s.pins.inValid = false → t.took = s.took) ∧
    (s.inReq = true → s.pins.inValid = true → t.took = s.took ++ [{ err := s.pins.inErr, data := s.pins.inData }]) ∧
    (s.outValid = false ∨ s.pins.outReady = false → t.out = s.out) ∧
    (∀ k v, s.outKind = some (IoKind.code k) → s.outData = some v → s.pins.outReady = true →
      t.out = s.out ++ [{ kind := k, word := v }]) ∧
    (s.inReq = true → s.pins.inValid = false → t.inReq = true ∧ t.inKind = s.inKind) ∧
    (s.outValid = true → s.pins.outReady = false → t.outValid = true ∧ t.outKind = s.outKind ∧ t.outData = s.outData)
end

