-- ==== Sys2Proof/Laws/State.lean ====
section
/-! SUPPORT. One lemma for each field of State and each named write of it, true by rfl, so that no proof unfolds a record
update; and what a write leaves of the views (a cell read, the depth, the wires). -/

namespace Sys2Proof.Machine

namespace State

variable (s : State)

/-! ### The shorthands are the single writes -/

@[simp] theorem push_eq (v : Word) : s.push v = s.withStack (v :: s.stack) := rfl
@[simp] theorem advanced_eq : s.advanced = s.withPc (advance s.par s.dir s.pc) := rfl
@[simp] theorem enterString_eq : s.enterString = s.withSm true := rfl
@[simp] theorem leaveString_eq : s.leaveString = s.withSm false := rfl
@[simp] theorem afterEdge_eq : s.afterEdge = s.withEnv s.env.afterEdge := rfl
@[simp] theorem rst_eq : s.rst = resetWith s.par s.env := rfl

/-! ### withPc -/

@[simp] theorem withPc_par (c : Coord) : (s.withPc c).par = s.par := rfl
@[simp] theorem withPc_grid (c : Coord) : (s.withPc c).grid = s.grid := rfl
@[simp] theorem withPc_stack (c : Coord) : (s.withPc c).stack = s.stack := rfl
@[simp] theorem withPc_pc (c : Coord) : (s.withPc c).pc = c := rfl
@[simp] theorem withPc_dir (c : Coord) : (s.withPc c).dir = s.dir := rfl
@[simp] theorem withPc_sm (c : Coord) : (s.withPc c).sm = s.sm := rfl
@[simp] theorem withPc_run (c : Coord) : (s.withPc c).run = s.run := rfl
@[simp] theorem withPc_fault (c : Coord) : (s.withPc c).fault = s.fault := rfl
@[simp] theorem withPc_pending (c : Coord) : (s.withPc c).pending = s.pending := rfl
@[simp] theorem withPc_busy (c : Coord) : (s.withPc c).busy = s.busy := rfl
@[simp] theorem withPc_out (c : Coord) : (s.withPc c).out = s.out := rfl
@[simp] theorem withPc_took (c : Coord) : (s.withPc c).took = s.took := rfl
@[simp] theorem withPc_env (c : Coord) : (s.withPc c).env = s.env := rfl
@[simp] theorem withPc_readCell (c : Coord) (x : Coord) : (s.withPc c).readCell x = s.readCell x := rfl
@[simp] theorem withPc_depth (c : Coord) : (s.withPc c).depth = s.depth := rfl
@[simp] theorem withPc_pins (c : Coord) : (s.withPc c).pins = s.pins := rfl

/-! ### withDir -/

@[simp] theorem withDir_par (d : Dir) : (s.withDir d).par = s.par := rfl
@[simp] theorem withDir_grid (d : Dir) : (s.withDir d).grid = s.grid := rfl
@[simp] theorem withDir_stack (d : Dir) : (s.withDir d).stack = s.stack := rfl
@[simp] theorem withDir_pc (d : Dir) : (s.withDir d).pc = s.pc := rfl
@[simp] theorem withDir_dir (d : Dir) : (s.withDir d).dir = d := rfl
@[simp] theorem withDir_sm (d : Dir) : (s.withDir d).sm = s.sm := rfl
@[simp] theorem withDir_run (d : Dir) : (s.withDir d).run = s.run := rfl
@[simp] theorem withDir_fault (d : Dir) : (s.withDir d).fault = s.fault := rfl
@[simp] theorem withDir_pending (d : Dir) : (s.withDir d).pending = s.pending := rfl
@[simp] theorem withDir_busy (d : Dir) : (s.withDir d).busy = s.busy := rfl
@[simp] theorem withDir_out (d : Dir) : (s.withDir d).out = s.out := rfl
@[simp] theorem withDir_took (d : Dir) : (s.withDir d).took = s.took := rfl
@[simp] theorem withDir_env (d : Dir) : (s.withDir d).env = s.env := rfl
@[simp] theorem withDir_readCell (d : Dir) (x : Coord) : (s.withDir d).readCell x = s.readCell x := rfl
@[simp] theorem withDir_depth (d : Dir) : (s.withDir d).depth = s.depth := rfl
@[simp] theorem withDir_pins (d : Dir) : (s.withDir d).pins = s.pins := rfl

/-! ### withRun -/

@[simp] theorem withRun_par (r : RunState) : (s.withRun r).par = s.par := rfl
@[simp] theorem withRun_grid (r : RunState) : (s.withRun r).grid = s.grid := rfl
@[simp] theorem withRun_stack (r : RunState) : (s.withRun r).stack = s.stack := rfl
@[simp] theorem withRun_pc (r : RunState) : (s.withRun r).pc = s.pc := rfl
@[simp] theorem withRun_dir (r : RunState) : (s.withRun r).dir = s.dir := rfl
@[simp] theorem withRun_sm (r : RunState) : (s.withRun r).sm = s.sm := rfl
@[simp] theorem withRun_run (r : RunState) : (s.withRun r).run = r := rfl
@[simp] theorem withRun_fault (r : RunState) : (s.withRun r).fault = s.fault := rfl
@[simp] theorem withRun_pending (r : RunState) : (s.withRun r).pending = s.pending := rfl
@[simp] theorem withRun_busy (r : RunState) : (s.withRun r).busy = s.busy := rfl
@[simp] theorem withRun_out (r : RunState) : (s.withRun r).out = s.out := rfl
@[simp] theorem withRun_took (r : RunState) : (s.withRun r).took = s.took := rfl
@[simp] theorem withRun_env (r : RunState) : (s.withRun r).env = s.env := rfl
@[simp] theorem withRun_readCell (r : RunState) (x : Coord) : (s.withRun r).readCell x = s.readCell x := rfl
@[simp] theorem withRun_depth (r : RunState) : (s.withRun r).depth = s.depth := rfl
@[simp] theorem withRun_pins (r : RunState) : (s.withRun r).pins = s.pins := rfl

/-! ### withStack -/

@[simp] theorem withStack_par (st : List Word) : (s.withStack st).par = s.par := rfl
@[simp] theorem withStack_grid (st : List Word) : (s.withStack st).grid = s.grid := rfl
@[simp] theorem withStack_stack (st : List Word) : (s.withStack st).stack = st := rfl
@[simp] theorem withStack_pc (st : List Word) : (s.withStack st).pc = s.pc := rfl
@[simp] theorem withStack_dir (st : List Word) : (s.withStack st).dir = s.dir := rfl
@[simp] theorem withStack_sm (st : List Word) : (s.withStack st).sm = s.sm := rfl
@[simp] theorem withStack_run (st : List Word) : (s.withStack st).run = s.run := rfl
@[simp] theorem withStack_fault (st : List Word) : (s.withStack st).fault = s.fault := rfl
@[simp] theorem withStack_pending (st : List Word) : (s.withStack st).pending = s.pending := rfl
@[simp] theorem withStack_busy (st : List Word) : (s.withStack st).busy = s.busy := rfl
@[simp] theorem withStack_out (st : List Word) : (s.withStack st).out = s.out := rfl
@[simp] theorem withStack_took (st : List Word) : (s.withStack st).took = s.took := rfl
@[simp] theorem withStack_env (st : List Word) : (s.withStack st).env = s.env := rfl
@[simp] theorem withStack_readCell (st : List Word) (x : Coord) : (s.withStack st).readCell x = s.readCell x := rfl
@[simp] theorem withStack_depth (st : List Word) : (s.withStack st).depth = st.length := rfl
@[simp] theorem withStack_pins (st : List Word) : (s.withStack st).pins = s.pins := rfl

/-! ### withPending -/

@[simp] theorem withPending_par (q : Option Request) : (s.withPending q).par = s.par := rfl
@[simp] theorem withPending_grid (q : Option Request) : (s.withPending q).grid = s.grid := rfl
@[simp] theorem withPending_stack (q : Option Request) : (s.withPending q).stack = s.stack := rfl
@[simp] theorem withPending_pc (q : Option Request) : (s.withPending q).pc = s.pc := rfl
@[simp] theorem withPending_dir (q : Option Request) : (s.withPending q).dir = s.dir := rfl
@[simp] theorem withPending_sm (q : Option Request) : (s.withPending q).sm = s.sm := rfl
@[simp] theorem withPending_run (q : Option Request) : (s.withPending q).run = s.run := rfl
@[simp] theorem withPending_fault (q : Option Request) : (s.withPending q).fault = s.fault := rfl
@[simp] theorem withPending_pending (q : Option Request) : (s.withPending q).pending = q := rfl
@[simp] theorem withPending_busy (q : Option Request) : (s.withPending q).busy = s.busy := rfl
@[simp] theorem withPending_out (q : Option Request) : (s.withPending q).out = s.out := rfl
@[simp] theorem withPending_took (q : Option Request) : (s.withPending q).took = s.took := rfl
@[simp] theorem withPending_env (q : Option Request) : (s.withPending q).env = s.env := rfl
@[simp] theorem withPending_readCell (q : Option Request) (x : Coord) : (s.withPending q).readCell x = s.readCell x := rfl
@[simp] theorem withPending_depth (q : Option Request) : (s.withPending q).depth = s.depth := rfl
@[simp] theorem withPending_pins (q : Option Request) : (s.withPending q).pins = s.pins := rfl

/-! ### withEnv -/

@[simp] theorem withEnv_par (e : Env) : (s.withEnv e).par = s.par := rfl
@[simp] theorem withEnv_grid (e : Env) : (s.withEnv e).grid = s.grid := rfl
@[simp] theorem withEnv_stack (e : Env) : (s.withEnv e).stack = s.stack := rfl
@[simp] theorem withEnv_pc (e : Env) : (s.withEnv e).pc = s.pc := rfl
@[simp] theorem withEnv_dir (e : Env) : (s.withEnv e).dir = s.dir := rfl
@[simp] theorem withEnv_sm (e : Env) : (s.withEnv e).sm = s.sm := rfl
@[simp] theorem withEnv_run (e : Env) : (s.withEnv e).run = s.run := rfl
@[simp] theorem withEnv_fault (e : Env) : (s.withEnv e).fault = s.fault := rfl
@[simp] theorem withEnv_pending (e : Env) : (s.withEnv e).pending = s.pending := rfl
@[simp] theorem withEnv_busy (e : Env) : (s.withEnv e).busy = s.busy := rfl
@[simp] theorem withEnv_out (e : Env) : (s.withEnv e).out = s.out := rfl
@[simp] theorem withEnv_took (e : Env) : (s.withEnv e).took = s.took := rfl
@[simp] theorem withEnv_env (e : Env) : (s.withEnv e).env = e := rfl
@[simp] theorem withEnv_readCell (e : Env) (x : Coord) : (s.withEnv e).readCell x = s.readCell x := rfl
@[simp] theorem withEnv_depth (e : Env) : (s.withEnv e).depth = s.depth := rfl
@[simp] theorem withEnv_pins (e : Env) : (s.withEnv e).pins = e.pins := rfl

/-! ### withSm -/

@[simp] theorem withSm_par (b : Bool) : (s.withSm b).par = s.par := rfl
@[simp] theorem withSm_grid (b : Bool) : (s.withSm b).grid = s.grid := rfl
@[simp] theorem withSm_stack (b : Bool) : (s.withSm b).stack = s.stack := rfl
@[simp] theorem withSm_pc (b : Bool) : (s.withSm b).pc = s.pc := rfl
@[simp] theorem withSm_dir (b : Bool) : (s.withSm b).dir = s.dir := rfl
@[simp] theorem withSm_sm (b : Bool) : (s.withSm b).sm = b := rfl
@[simp] theorem withSm_run (b : Bool) : (s.withSm b).run = s.run := rfl
@[simp] theorem withSm_fault (b : Bool) : (s.withSm b).fault = s.fault := rfl
@[simp] theorem withSm_pending (b : Bool) : (s.withSm b).pending = s.pending := rfl
@[simp] theorem withSm_busy (b : Bool) : (s.withSm b).busy = s.busy := rfl
@[simp] theorem withSm_out (b : Bool) : (s.withSm b).out = s.out := rfl
@[simp] theorem withSm_took (b : Bool) : (s.withSm b).took = s.took := rfl
@[simp] theorem withSm_env (b : Bool) : (s.withSm b).env = s.env := rfl
@[simp] theorem withSm_readCell (b : Bool) (x : Coord) : (s.withSm b).readCell x = s.readCell x := rfl
@[simp] theorem withSm_depth (b : Bool) : (s.withSm b).depth = s.depth := rfl
@[simp] theorem withSm_pins (b : Bool) : (s.withSm b).pins = s.pins := rfl

/-! ### writeCell -/

@[simp] theorem writeCell_par (c : Coord) (v : Byte) : (s.writeCell c v).par = s.par := rfl
@[simp] theorem writeCell_grid (c : Coord) (v : Byte) : (s.writeCell c v).grid = Memory.write s.par.blank s.grid (c.key s.par) v := rfl
@[simp] theorem writeCell_stack (c : Coord) (v : Byte) : (s.writeCell c v).stack = s.stack := rfl
@[simp] theorem writeCell_pc (c : Coord) (v : Byte) : (s.writeCell c v).pc = s.pc := rfl
@[simp] theorem writeCell_dir (c : Coord) (v : Byte) : (s.writeCell c v).dir = s.dir := rfl
@[simp] theorem writeCell_sm (c : Coord) (v : Byte) : (s.writeCell c v).sm = s.sm := rfl
@[simp] theorem writeCell_run (c : Coord) (v : Byte) : (s.writeCell c v).run = s.run := rfl
@[simp] theorem writeCell_fault (c : Coord) (v : Byte) : (s.writeCell c v).fault = s.fault := rfl
@[simp] theorem writeCell_pending (c : Coord) (v : Byte) : (s.writeCell c v).pending = s.pending := rfl
@[simp] theorem writeCell_busy (c : Coord) (v : Byte) : (s.writeCell c v).busy = s.busy := rfl
@[simp] theorem writeCell_out (c : Coord) (v : Byte) : (s.writeCell c v).out = s.out := rfl
@[simp] theorem writeCell_took (c : Coord) (v : Byte) : (s.writeCell c v).took = s.took := rfl
@[simp] theorem writeCell_env (c : Coord) (v : Byte) : (s.writeCell c v).env = s.env := rfl
@[simp] theorem writeCell_depth (c : Coord) (v : Byte) : (s.writeCell c v).depth = s.depth := rfl
@[simp] theorem writeCell_pins (c : Coord) (v : Byte) : (s.writeCell c v).pins = s.pins := rfl

/-! ### tookAnswer -/

@[simp] theorem tookAnswer_par (a : Answer) : (s.tookAnswer a).par = s.par := rfl
@[simp] theorem tookAnswer_grid (a : Answer) : (s.tookAnswer a).grid = s.grid := rfl
@[simp] theorem tookAnswer_stack (a : Answer) : (s.tookAnswer a).stack = s.stack := rfl
@[simp] theorem tookAnswer_pc (a : Answer) : (s.tookAnswer a).pc = s.pc := rfl
@[simp] theorem tookAnswer_dir (a : Answer) : (s.tookAnswer a).dir = s.dir := rfl
@[simp] theorem tookAnswer_sm (a : Answer) : (s.tookAnswer a).sm = s.sm := rfl
@[simp] theorem tookAnswer_run (a : Answer) : (s.tookAnswer a).run = s.run := rfl
@[simp] theorem tookAnswer_fault (a : Answer) : (s.tookAnswer a).fault = s.fault := rfl
@[simp] theorem tookAnswer_pending (a : Answer) : (s.tookAnswer a).pending = none := rfl
@[simp] theorem tookAnswer_busy (a : Answer) : (s.tookAnswer a).busy = s.busy := rfl
@[simp] theorem tookAnswer_out (a : Answer) : (s.tookAnswer a).out = s.out := rfl
@[simp] theorem tookAnswer_took (a : Answer) : (s.tookAnswer a).took = s.took ++ [a] := rfl
@[simp] theorem tookAnswer_env (a : Answer) : (s.tookAnswer a).env = s.env.afterAnswer := rfl
@[simp] theorem tookAnswer_readCell (a : Answer) (x : Coord) : (s.tookAnswer a).readCell x = s.readCell x := rfl
@[simp] theorem tookAnswer_depth (a : Answer) : (s.tookAnswer a).depth = s.depth := rfl

/-! ### sentWord -/

@[simp] theorem sentWord_par (w : OutWord) : (s.sentWord w).par = s.par := rfl
@[simp] theorem sentWord_grid (w : OutWord) : (s.sentWord w).grid = s.grid := rfl
@[simp] theorem sentWord_stack (w : OutWord) : (s.sentWord w).stack = s.stack := rfl
@[simp] theorem sentWord_pc (w : OutWord) : (s.sentWord w).pc = s.pc := rfl
@[simp] theorem sentWord_dir (w : OutWord) : (s.sentWord w).dir = s.dir := rfl
@[simp] theorem sentWord_sm (w : OutWord) : (s.sentWord w).sm = s.sm := rfl
@[simp] theorem sentWord_run (w : OutWord) : (s.sentWord w).run = s.run := rfl
@[simp] theorem sentWord_fault (w : OutWord) : (s.sentWord w).fault = s.fault := rfl
@[simp] theorem sentWord_pending (w : OutWord) : (s.sentWord w).pending = none := rfl
@[simp] theorem sentWord_busy (w : OutWord) : (s.sentWord w).busy = s.busy := rfl
@[simp] theorem sentWord_out (w : OutWord) : (s.sentWord w).out = s.out ++ [w] := rfl
@[simp] theorem sentWord_took (w : OutWord) : (s.sentWord w).took = s.took := rfl
@[simp] theorem sentWord_env (w : OutWord) : (s.sentWord w).env = s.env := rfl
@[simp] theorem sentWord_readCell (w : OutWord) (x : Coord) : (s.sentWord w).readCell x = s.readCell x := rfl
@[simp] theorem sentWord_depth (w : OutWord) : (s.sentWord w).depth = s.depth := rfl
@[simp] theorem sentWord_pins (w : OutWord) : (s.sentWord w).pins = s.pins := rfl

/-! ### faulted -/

@[simp] theorem faulted_par (code : FaultCode) (op : Byte) (need : BitVec 2) : (s.faulted code op need).par = s.par := rfl
@[simp] theorem faulted_grid (code : FaultCode) (op : Byte) (need : BitVec 2) : (s.faulted code op need).grid = s.grid := rfl
@[simp] theorem faulted_stack (code : FaultCode) (op : Byte) (need : BitVec 2) : (s.faulted code op need).stack = s.stack := rfl
@[simp] theorem faulted_pc (code : FaultCode) (op : Byte) (need : BitVec 2) : (s.faulted code op need).pc = s.pc := rfl
@[simp] theorem faulted_dir (code : FaultCode) (op : Byte) (need : BitVec 2) : (s.faulted code op need).dir = s.dir := rfl
@[simp] theorem faulted_sm (code : FaultCode) (op : Byte) (need : BitVec 2) : (s.faulted code op need).sm = s.sm := rfl
@[simp] theorem faulted_run (code : FaultCode) (op : Byte) (need : BitVec 2) : (s.faulted code op need).run = .faulted := rfl
@[simp] theorem faulted_fault (code : FaultCode) (op : Byte) (need : BitVec 2) : (s.faulted code op need).fault = { code := code, op := op, need := need, depth := s.depth } := rfl
@[simp] theorem faulted_pending (code : FaultCode) (op : Byte) (need : BitVec 2) : (s.faulted code op need).pending = s.pending := rfl
@[simp] theorem faulted_busy (code : FaultCode) (op : Byte) (need : BitVec 2) : (s.faulted code op need).busy = s.busy := rfl
@[simp] theorem faulted_out (code : FaultCode) (op : Byte) (need : BitVec 2) : (s.faulted code op need).out = s.out := rfl
@[simp] theorem faulted_took (code : FaultCode) (op : Byte) (need : BitVec 2) : (s.faulted code op need).took = s.took := rfl
@[simp] theorem faulted_env (code : FaultCode) (op : Byte) (need : BitVec 2) : (s.faulted code op need).env = s.env := rfl
@[simp] theorem faulted_readCell (code : FaultCode) (op : Byte) (need : BitVec 2) (x : Coord) : (s.faulted code op need).readCell x = s.readCell x := rfl
@[simp] theorem faulted_depth (code : FaultCode) (op : Byte) (need : BitVec 2) : (s.faulted code op need).depth = s.depth := rfl
@[simp] theorem faulted_pins (code : FaultCode) (op : Byte) (need : BitVec 2) : (s.faulted code op need).pins = s.pins := rfl

/-! ### Reset -/

@[simp] theorem resetWith_par (p : Params) (e : Env) : (resetWith p e).par = p := rfl
@[simp] theorem resetWith_grid (p : Params) (e : Env) : (resetWith p e).grid = [] := rfl
@[simp] theorem resetWith_stack (p : Params) (e : Env) : (resetWith p e).stack = [] := rfl
@[simp] theorem resetWith_pc (p : Params) (e : Env) : (resetWith p e).pc = { row := 0, col := p.width - 1 } := rfl
@[simp] theorem resetWith_dir (p : Params) (e : Env) : (resetWith p e).dir = .right := rfl
@[simp] theorem resetWith_sm (p : Params) (e : Env) : (resetWith p e).sm = false := rfl
@[simp] theorem resetWith_run (p : Params) (e : Env) : (resetWith p e).run = .idle := rfl
@[simp] theorem resetWith_fault (p : Params) (e : Env) : (resetWith p e).fault = FaultRecord.clear := rfl
@[simp] theorem resetWith_pending (p : Params) (e : Env) : (resetWith p e).pending = none := rfl
@[simp] theorem resetWith_busy (p : Params) (e : Env) : (resetWith p e).busy = p.clearEdges := rfl
@[simp] theorem resetWith_out (p : Params) (e : Env) : (resetWith p e).out = [] := rfl
@[simp] theorem resetWith_took (p : Params) (e : Env) : (resetWith p e).took = [] := rfl
@[simp] theorem resetWith_env (p : Params) (e : Env) : (resetWith p e).env = e := rfl
@[simp] theorem resetWith_readCell (p : Params) (e : Env) (x : Coord) : (resetWith p e).readCell x = p.blank := rfl
@[simp] theorem resetWith_depth (p : Params) (e : Env) : (resetWith p e).depth = 0 := rfl
@[simp] theorem resetWith_pins (p : Params) (e : Env) : (resetWith p e).pins = e.pins := rfl

end State

/-! ### The host's side -/

@[simp] theorem Env.afterEdge_edges (e : Env) : e.afterEdge.edges = e.edges.tail := rfl
@[simp] theorem Env.afterEdge_answers (e : Env) : e.afterEdge.answers = e.answers := rfl
@[simp] theorem Env.afterEdge_outReady (e : Env) : e.afterEdge.outReady = e.outReady := rfl
@[simp] theorem Env.afterEdge_draws (e : Env) : e.afterEdge.draws = e.draws := rfl
@[simp] theorem Env.afterEdge_drawn (e : Env) : e.afterEdge.drawn = e.drawn := rfl

/-- An answer taken leaves the scheduled edges. -/
@[simp] theorem Env.afterAnswer_edges (e : Env) : e.afterAnswer.edges = e.edges := by
  unfold Env.afterAnswer; split <;> simp_all

/-- A draw leaves the scheduled edges. -/
@[simp] theorem Env.afterDraw_edges (e : Env) : e.afterDraw.edges = e.edges := by
  unfold Env.afterDraw; split <;> simp_all

/-- The standing host asserts no reset. -/
@[simp] theorem Env.standing_rst (e : Env) : e.standing.rst = false := by
  unfold Env.standing; split <;> rfl

/-- With no edge scheduled the wires are the standing host's. -/
theorem Env.pins_of_edges_nil {e : Env} (h : e.edges = []) : e.pins = e.standing := by
  simp [Env.pins, h]

end Sys2Proof.Machine
end

