-- ==== Sys2Proof/Laws/Memory.lean ====
section
/-! SUPPORT. The grid's laws: a read after a write of the same cell gives the written byte, a write leaves every other cell
alone, and every operation keeps the canonical form. -/

namespace Sys2Proof.Machine

namespace Memory

variable {blank : Byte}

@[simp] theorem read_nil (blank : Byte) (a : Nat) : read blank [] a = blank := rfl

/-- A key that is not listed reads as blank. -/
theorem read_of_not_mem {m : Memory} {a : Nat} (h : ∀ x ∈ m, x.1 ≠ a) : read blank m a = blank := by
  induction m with
  | nil => rfl
  | cons x m ih =>
    have hx := h x (by simp)
    simp only [read, hx, if_false]
    exact ih fun y hy => h y (by simp [hy])

/-- A write leaves every other key alone, on any list. -/
theorem read_write_other {m : Memory} {a b : Nat} (v : Byte) (h : b ≠ a) :
    read blank (write blank m a v) b = read blank m b := by
  induction m with
  | nil =>
    simp only [write]
    split <;> simp [read, Ne.symm h]
  | cons x m ih =>
    simp only [write]
    have h' : a ≠ b := Ne.symm h
    split_ifs with h1 h2 h3 h4
    · rfl
    · simp [read, h']
    · subst h3; simp [read, h']
    · subst h3; simp [read, h']
    · simp [read, ih]

/-- In a list with rising keys a written cell reads as written. -/
theorem read_write_same {m : Memory} {a : Nat} (v : Byte) (hm : m.Pairwise fun x y => x.1 < y.1) :
    read blank (write blank m a v) a = v := by
  induction m with
  | nil =>
    simp only [write]
    split <;> simp_all [read]
  | cons x m ih =>
    obtain ⟨hx, hm⟩ := List.pairwise_cons.mp hm
    simp only [write]
    split_ifs with h1 h2 h3 h4
    · subst h2
      refine read_of_not_mem fun y hy => ?_
      rcases List.mem_cons.mp hy with rfl | hy
      · omega
      · have := hx y hy; omega
    · simp [read]
    · subst h4
      refine read_of_not_mem fun y hy => ?_
      have := hx y hy; omega
    · simp [read]
    · simp only [read, Ne.symm h3, if_false]
      exact ih hm

/-- The keys after a write are keys of before, or the written one with a byte that is not blank. -/
theorem mem_write {m : Memory} {a : Nat} {v : Byte} {x : Host.Cell} (h : x ∈ write blank m a v) :
    x ∈ m ∨ x = (a, v) ∧ v ≠ blank := by
  induction m with
  | nil =>
    simp only [write] at h
    split at h <;> simp_all
  | cons y m ih =>
    simp only [write] at h
    split_ifs at h with h1 h2 h3 h4 <;> simp only [List.mem_cons] at h ⊢ <;> tauto

/-- A write keeps the keys rising. -/
theorem write_pairwise {m : Memory} (a : Nat) (v : Byte) (hm : m.Pairwise fun x y => x.1 < y.1) :
    (write blank m a v).Pairwise fun x y => x.1 < y.1 := by
  induction m with
  | nil =>
    simp only [write]
    split <;> simp
  | cons x m ih =>
    obtain ⟨hx, hm'⟩ := List.pairwise_cons.mp hm
    simp only [write]
    split_ifs with h1 h2 h3 h4
    · exact hm
    · refine List.pairwise_cons.mpr ⟨fun y hy => ?_, hm⟩
      rcases List.mem_cons.mp hy with rfl | hy
      · exact h1
      · exact h1.trans (hx y hy)
    · exact hm'
    · exact List.pairwise_cons.mpr ⟨fun y hy => h3 ▸ hx y hy, hm'⟩
    · refine List.pairwise_cons.mpr ⟨fun y hy => ?_, ih hm'⟩
      rcases mem_write hy with hy | ⟨rfl, -⟩
      · exact hx y hy
      · simp only; omega

/-- A write inside the grid keeps the canonical form. -/
theorem write_wf {p : Params} {m : Memory} {a : Nat} (v : Byte) (ha : a < p.height * p.width) (hm : wf p m) :
    wf p (write p.blank m a v) := by
  refine ⟨write_pairwise a v hm.1, fun x hx => ?_⟩
  rcases mem_write hx with hx | ⟨rfl, hv⟩
  · exact hm.2 x hx
  · exact ⟨hv, ha⟩

/-- The empty list is in canonical form. -/
theorem wf_nil (p : Params) : wf p [] := ⟨List.Pairwise.nil, by simp⟩

end Memory

/-- A coordinate of the grid has a key below H * W. -/
theorem Coord.key_lt {p : Params} {c : Coord} (h : c.valid p) : c.key p < p.height * p.width := by
  have h1 : c.row + 1 ≤ p.height := h.1
  calc c.row * p.width + c.col < c.row * p.width + p.width := by have := h.2; omega
    _ = (c.row + 1) * p.width := by ring
    _ ≤ p.height * p.width := Nat.mul_le_mul_right _ h1

/-- Two coordinates of the grid with one key are one coordinate. -/
theorem Coord.key_inj {p : Params} {c d : Coord} (hc : c.valid p) (hd : d.valid p) (h : c.key p = d.key p) : c = d := by
  have hw : 0 < p.width := by have := hc.2; omega
  have hcol : c.col = d.col := by
    have := congrArg (· % p.width) h
    simpa [Coord.key, Nat.mul_add_mod', Nat.add_mod, Nat.mod_eq_of_lt hc.2, Nat.mod_eq_of_lt hd.2] using this
  have hrow : c.row = d.row := by
    have := congrArg (· / p.width) h
    simpa [Coord.key, Nat.add_div_of_dvd_right, Nat.mul_div_cancel _ hw, Nat.div_eq_of_lt hc.2,
      Nat.div_eq_of_lt hd.2] using this
  cases c; cases d; simp_all

namespace State

variable {s : State}

/-- A cell written reads as written (20_memory.md R63). -/
theorem readCell_writeCell_same (c : Coord) (v : Byte) (h : Memory.wf s.par s.grid) :
    (s.writeCell c v).readCell c = v := Memory.read_write_same v h.1

/-- A write leaves every other cell of the grid alone (20_memory.md R63). -/
theorem readCell_writeCell_other {c d : Coord} (v : Byte) (hc : c.valid s.par) (hd : d.valid s.par) (h : d ≠ c) :
    (s.writeCell c v).readCell d = s.readCell d :=
  Memory.read_write_other v fun hk => h (Coord.key_inj hd hc hk)

/-- A write of a cell of the grid keeps the canonical form. -/
theorem writeCell_wf {c : Coord} (v : Byte) (hc : c.valid s.par) (h : Memory.wf s.par s.grid) :
    Memory.wf s.par (s.writeCell c v).grid := Memory.write_wf v (Coord.key_lt hc) h

/-- The load port keeps the canonical form, in range or not (70_reset_and_hazards.md R263). -/
theorem loadCell_wf (c : Coord) (v : Byte) (h : Memory.wf s.par s.grid) : Memory.wf s.par (s.loadCell c v).grid := by
  unfold loadCell
  split
  · exact writeCell_wf v ‹_› h
  · exact h

end State

end Sys2Proof.Machine
end

