-- ==== Sys2Proof/Laws/Pc.lean ====
section
/-! SUPPORT. The advance (40_dispatch.md R100) and the coordinates of `g` and `p`. -/

namespace Sys2Proof.Machine

@[simp] theorem advance_right (p : Params) (c : Coord) :
    advance p .right c = { row := c.row, col := if c.col = p.width - 1 then 0 else c.col + 1 } := rfl

@[simp] theorem advance_left (p : Params) (c : Coord) :
    advance p .left c = { row := c.row, col := if c.col = 0 then p.width - 1 else c.col - 1 } := rfl

@[simp] theorem advance_down (p : Params) (c : Coord) :
    advance p .down c = { row := if c.row = p.height - 1 then 0 else c.row + 1, col := c.col } := rfl

@[simp] theorem advance_up (p : Params) (c : Coord) :
    advance p .up c = { row := if c.row = 0 then p.height - 1 else c.row - 1, col := c.col } := rfl

/-- The advance never leaves the grid (10_state.md R24). -/
theorem advance_valid {p : Params} (d : Dir) {c : Coord} (h : c.valid p) : (advance p d c).valid p := by
  obtain ⟨hr, hc⟩ := h
  cases d <;> simp only [advance, Coord.valid] <;> constructor <;> (try split) <;> omega

/-- Fetch at a coordinate of the grid reads the cell. -/
theorem State.fetch_of_valid {s : State} (h : s.pc.valid s.par) : s.fetch = some (s.readCell s.pc) := if_pos h

/-- What `gridCoord` answers with is a coordinate of the grid. -/
theorem gridCoord_valid {p : Params} {r c : Word} {a : Coord} (h : gridCoord p r c = some a) : a.valid p := by
  unfold gridCoord at h
  split at h
  · cases h
    constructor <;> simp only <;> omega
  · cases h

/-- In range, the popped values are the coordinate (46_grid_access.md R210, R211). -/
theorem gridCoord_in {p : Params} {r c : Word}
    (h : 0 ≤ r.toInt ∧ r.toInt < p.height ∧ 0 ≤ c.toInt ∧ c.toInt < p.width) :
    gridCoord p r c = some { row := r.toInt.toNat, col := c.toInt.toNat } := if_pos h

/-- A coordinate is made of the popped pair, as natural numbers (20_memory.md R69). -/
theorem gridCoord_eq {p : Params} {r c : Word} {a : Coord} (h : gridCoord p r c = some a) :
    a = { row := r.toInt.toNat, col := c.toInt.toNat } := by
  unfold gridCoord at h
  split at h
  · exact (Option.some.inj h).symm
  · cases h

/-- Out of range there is no coordinate, and nothing wraps (60_exceptions.md R232). -/
theorem gridCoord_out {p : Params} {r c : Word}
    (h : ¬(0 ≤ r.toInt ∧ r.toInt < p.height ∧ 0 ≤ c.toInt ∧ c.toInt < p.width)) :
    gridCoord p r c = none := if_neg h

end Sys2Proof.Machine
end

