-- ==== Sys2Proof/Laws/Ops.lean ====
section
/-! SUPPORT. What each shared operation can answer, said once: the checks, the operand forms and the port transfer. -/

namespace Sys2Proof.Machine

/-! ### Raising a fault -/

/-- A raised fault is a next state (60_exceptions.md R240). -/
@[simp] theorem raise_eq (code : FaultCode) (op : Byte) (need : BitVec 2) (s : State) :
    raise code op need s = .next (s.faulted code op need) := rfl

/-- The state an underflow of an instruction leaves (60_exceptions.md R231). -/
@[simp] theorem underflow_eq (i : Instr) (s : State) :
    underflow i s = .next (s.faulted .stackUnderflow (encode i) (BitVec.ofNat 2 (pops i))) := rfl

/-! ### The room check -/

theorem roomFor_ok {popped pushed : Nat} {op : Byte} {s : State} {k : Result}
    (h : s.depth - popped + pushed ≤ s.par.stackDepth) : roomFor popped pushed op s k = k :=
  if_neg (by omega)

theorem roomFor_full {popped pushed : Nat} {op : Byte} {s : State} {k : Result}
    (h : s.par.stackDepth < s.depth - popped + pushed) :
    roomFor popped pushed op s k = .next (s.faulted .stackOverflow op 0) :=
  if_pos h

theorem roomFor_cases {popped pushed : Nat} {op : Byte} {s t : State} {k : Result}
    (h : roomFor popped pushed op s k = .next t) :
    s.par.stackDepth < s.depth - popped + pushed ∧ t = s.faulted .stackOverflow op 0 ∨
      s.depth - popped + pushed ≤ s.par.stackDepth ∧ k = .next t := by
  unfold roomFor at h
  split at h
  · exact .inl ⟨‹_›, by cases h; rfl⟩
  · exact .inr ⟨by omega, h⟩

/-! ### The operand forms -/

theorem oneOperand_cons {i : Instr} {s : State} {f : Word → List Word → Result} {x : Word} {rest : List Word}
    (h : s.stack = x :: rest) : oneOperand i s f = f x rest := by
  simp [oneOperand, h]

theorem oneOperand_short {i : Instr} {s : State} {f : Word → List Word → Result} (h : s.depth < 1) :
    oneOperand i s f = underflow i s := by
  unfold oneOperand
  split
  · simp_all [State.depth]
  · rfl

theorem oneOperand_cases {i : Instr} {s t : State} {f : Word → List Word → Result} (h : oneOperand i s f = .next t) :
    s.depth < 1 ∧ t = s.faulted .stackUnderflow (encode i) (BitVec.ofNat 2 (pops i)) ∨
      ∃ x rest, s.stack = x :: rest ∧ f x rest = .next t := by
  unfold oneOperand at h
  split at h
  · exact .inr ⟨_, _, ‹_›, h⟩
  · exact .inl ⟨by simp_all [State.depth], by cases h; rfl⟩

theorem twoOperands_cons {i : Instr} {s : State} {f : Word → Word → List Word → Result} {y x : Word} {rest : List Word}
    (h : s.stack = y :: x :: rest) : twoOperands i s f = f y x rest := by
  simp [twoOperands, h]

theorem twoOperands_short {i : Instr} {s : State} {f : Word → Word → List Word → Result} (h : s.depth < 2) :
    twoOperands i s f = underflow i s := by
  unfold twoOperands
  split
  · simp_all [State.depth]
  · rfl
  · rfl

theorem twoOperands_cases {i : Instr} {s t : State} {f : Word → Word → List Word → Result}
    (h : twoOperands i s f = .next t) :
    s.depth < 2 ∧ t = s.faulted .stackUnderflow (encode i) (BitVec.ofNat 2 (pops i)) ∨
      ∃ y x rest, s.stack = y :: x :: rest ∧ f y x rest = .next t := by
  unfold twoOperands at h
  split at h
  · exact .inr ⟨_, _, _, ‹_›, h⟩
  all_goals exact .inl ⟨by simp_all [State.depth], by cases h; rfl⟩

theorem threeOperands_cons {i : Instr} {s : State} {f : Word → Word → Word → List Word → Result} {a b c : Word}
    {rest : List Word} (h : s.stack = a :: b :: c :: rest) : threeOperands i s f = f a b c rest := by
  simp [threeOperands, h]

theorem threeOperands_short {i : Instr} {s : State} {f : Word → Word → Word → List Word → Result} (h : s.depth < 3) :
    threeOperands i s f = underflow i s := by
  unfold threeOperands
  split
  · simp_all [State.depth]
    omega
  all_goals rfl

theorem threeOperands_cases {i : Instr} {s t : State} {f : Word → Word → Word → List Word → Result}
    (h : threeOperands i s f = .next t) :
    s.depth < 3 ∧ t = s.faulted .stackUnderflow (encode i) (BitVec.ofNat 2 (pops i)) ∨
      ∃ a b c rest, s.stack = a :: b :: c :: rest ∧ f a b c rest = .next t := by
  unfold threeOperands at h
  split at h
  · exact .inr ⟨_, _, _, _, ‹_›, h⟩
  all_goals exact .inl ⟨by simp_all [State.depth], by cases h; rfl⟩

/-- A binary operation underflows or replaces two operands by one result. -/
theorem binary_cases {i : Instr} {s t : State} {f : Word → Word → Word} (h : binary i f s = .next t) :
    s.depth < 2 ∧ t = s.faulted .stackUnderflow (encode i) (BitVec.ofNat 2 (pops i)) ∨
      ∃ y x rest, s.stack = y :: x :: rest ∧ t = s.withStack (f x y :: rest) := by
  rcases twoOperands_cases h with h | ⟨y, x, rest, hs, h⟩
  · exact .inl h
  · exact .inr ⟨y, x, rest, hs, by cases h; rfl⟩

/-- `/` and `%` underflow, raise DivisionByZero on a divisor 0, or replace two operands by one result. -/
theorem division_cases {i : Instr} {s t : State} {f : Word → Word → Word} (h : division i f s = .next t) :
    s.depth < 2 ∧ t = s.faulted .stackUnderflow (encode i) (BitVec.ofNat 2 (pops i)) ∨
      ∃ y x rest, s.stack = y :: x :: rest ∧
        (y = 0 ∧ t = s.faulted .divisionByZero (encode i) 0 ∨ y ≠ 0 ∧ t = s.withStack (f x y :: rest)) := by
  rcases twoOperands_cases h with h | ⟨y, x, rest, hs, h⟩
  · exact .inl h
  · refine .inr ⟨y, x, rest, hs, ?_⟩
    split at h <;> cases h
    · exact .inl ⟨‹_›, rfl⟩
    · exact .inr ⟨‹_›, rfl⟩

/-- A digit overflows or is pushed. -/
theorem pushDigit_cases {i : Instr} {s t : State} (h : pushDigit i s = .next t) :
    s.par.stackDepth < s.depth - pops i + pushes i ∧ t = s.faulted .stackOverflow (encode i) 0 ∨
      s.depth - pops i + pushes i ≤ s.par.stackDepth ∧ t = s.withStack (digitValue (encode i) :: s.stack) := by
  rcases roomFor_cases h with h | ⟨h, h'⟩
  · exact .inl h
  · exact .inr ⟨h, by cases h'; rfl⟩

/-! ### The port transfer -/

/-- One edge of a transfer: it waits, an answer is pushed, an INT answer is a ParseError, or a word is sent. -/
theorem transfer_cases {q : Request} {s t : State} (h : transfer q s = .next t) :
    t = s.withPending (some q) ∨
      (∃ k, q = .read k ∧ s.pins.inValid = true ∧
        t = (s.tookAnswer s.wireAnswer).withStack (s.pins.inData :: s.stack)) ∨
      (q = .read .int ∧ s.pins.inValid = true ∧ s.pins.inErr = true ∧
        t = (s.tookAnswer s.wireAnswer).faulted .parseError (encode .innum) 0) ∨
      ∃ k v, q = .write k v ∧ s.pins.outReady = true ∧
        t = (s.withStack s.stack.tail).sentWord { kind := k, word := v } := by
  match q with
  | .read .int =>
    simp only [transfer, takeInt, raise_eq] at h
    split_ifs at h with h1 h2 <;> cases h
    · exact .inr (.inr (.inl ⟨rfl, h1, h2, rfl⟩))
    · exact .inr (.inl ⟨_, rfl, h1, rfl⟩)
    · exact .inl rfl
  | .read .char =>
    simp only [transfer, takeChar] at h
    split at h <;> cases h
    · exact .inr (.inl ⟨_, rfl, ‹_›, rfl⟩)
    · exact .inl rfl
  | .write k v =>
    simp only [transfer] at h
    split at h <;> cases h
    · exact .inr (.inr (.inr ⟨k, v, rfl, ‹_›, rfl⟩))
    · exact .inl rfl

end Sys2Proof.Machine
end

