-- ==== Sys2Proof/Laws/Exec.lean ====
section
/-! SUPPORT. What an instruction can do, said once for each: the inversion of `exec`. -/

namespace Sys2Proof.Machine

/-- How an executed instruction can end, in the terms of the single writes of the state. Every instruction ends in one of
these; the constructors name what is written and, for a fault, which check failed. -/
inductive ExecEnds (i : Instr) (s : State) : State → Prop
  /-- A check failed: nothing is written but the fault. -/
  | fault (code : FaultCode) (need : BitVec 2) (hc : code ≠ .none)
      (hu : code = .stackUnderflow → s.depth < pops i ∧ need = BitVec.ofNat 2 (pops i))
      (hn : code ≠ .stackUnderflow → need = 0) :
      ExecEnds i s (s.faulted code (encode i) need)
  /-- The port answered `&` with ParseError. -/
  | parseError (hi : i = .innum) : ExecEnds i s ((s.tookAnswer s.wireAnswer).faulted .parseError (encode .innum) 0)
  /-- The port did not answer at this edge. -/
  | waitsForAnswer (k : IoKind) (hi : k = .int ∧ i = .innum ∨ k = .char ∧ i = .inchr)
      (h : s.depth + 1 ≤ s.par.stackDepth) : ExecEnds i s (s.withPending (some (.read k)))
  /-- The port did not accept at this edge. -/
  | waitsToSend (k : IoKind) (v x : Word) (rest : List Word) (hs : s.stack = x :: rest)
      (hi : k = .int ∧ i = .outnum ∧ v = x ∨ k = .char ∧ i = .outchr ∧ v = zext (low8 x)) :
      ExecEnds i s (s.withPending (some (.write k v)))
  /-- The port answered. -/
  | reads (hi : i = .innum ∨ i = .inchr) (h : s.depth + 1 ≤ s.par.stackDepth) :
      ExecEnds i s ((s.tookAnswer s.wireAnswer).withStack (s.pins.inData :: s.stack))
  /-- The port accepted a word. -/
  | writes (w : OutWord) (x : Word) (rest : List Word) (hs : s.stack = x :: rest) (hi : i = .outnum ∨ i = .outchr) :
      ExecEnds i s ((s.withStack s.stack.tail).sentWord w)
  /-- The stack alone is written: `pops` operands taken and `pushes` results put. -/
  | stack (st : List Word)
      (hi : i ∈ [Instr.not, .drop, .mod, .mul, .add, .sub, .div, .push0, .push1, .push2, .push3, .push4, .push5, .push6,
        .push7, .push8, .push9, .dup, .swap, .gt, .get])
      (hp : pops i ≤ s.depth) (hl : st.length + pops i = s.depth + pushes i)
      (hr : st.length ≤ s.depth ∨ st.length ≤ s.par.stackDepth) : ExecEnds i s (s.withStack st)
  /-- `_` and `|`: one operand is taken and the direction written. -/
  | branch (x : Word) (rest : List Word) (d : Dir) (h : s.stack = x :: rest) (hi : i = .hif ∨ i = .vif) :
      ExecEnds i s ((s.withStack rest).withDir d)
  /-- The direction alone is written. -/
  | turn (d : Dir) (hi : i = .up ∨ i = .down ∨ i = .left ∨ i = .right) : ExecEnds i s (s.withDir d)
  | random (hi : i = .rand) : ExecEnds i s ((s.withDir (Dir.ofCode s.pins.rnd)).withEnv s.env.afterDraw)
  | halt (hi : i = .halt) : ExecEnds i s (s.withRun .halted)
  | bridge (hi : i = .bridge) : ExecEnds i s (s.withPc (advance s.par s.dir s.pc))
  | nop (hi : i = .nop) : ExecEnds i s s
  | str (hi : i = .str) : ExecEnds i s (s.withSm true)
  /-- A cell of the grid is written. -/
  | put (a : Coord) (v r c : Word) (rest : List Word) (hs : s.stack = r :: c :: v :: rest)
      (ha : gridCoord s.par r c = some a) (hi : i = .put) :
      ExecEnds i s ((s.withStack rest).writeCell a (low8 v))

/-- The inversion of `exec`: every instruction ends in one of the ways of `ExecEnds`. -/
theorem exec_ends {i : Instr} {s t : State} (h : exec i s = .next t) : ExecEnds i s t := by
  have one : ∀ {f}, pops i = 1 → oneOperand i s f = .next t →
      (∀ x rest, s.stack = x :: rest → f x rest = .next t → ExecEnds i s t) → ExecEnds i s t := by
    intro f hp hf k
    rcases oneOperand_cases hf with ⟨h1, rfl⟩ | ⟨x, rest, hs, h2⟩
    · exact .fault _ _ (by decide) (fun _ => ⟨by omega, rfl⟩) (fun h => absurd rfl h)
    · exact k x rest hs h2
  have two : ∀ {f}, pops i = 2 → twoOperands i s f = .next t →
      (∀ y x rest, s.stack = y :: x :: rest → f y x rest = .next t → ExecEnds i s t) → ExecEnds i s t := by
    intro f hp hf k
    rcases twoOperands_cases hf with ⟨h1, rfl⟩ | ⟨y, x, rest, hs, h2⟩
    · exact .fault _ _ (by decide) (fun _ => ⟨by omega, rfl⟩) (fun h => absurd rfl h)
    · exact k y x rest hs h2
  have bin : ∀ {f}, pops i = 2 → pushes i = 1 → i ∈ [Instr.mul, .add, .sub, .gt] → binary i f s = .next t →
      ExecEnds i s t := by
    intro f hp hq hi hf
    refine two hp hf fun y x rest hs h2 => ?_
    cases h2
    exact .stack _ (by revert hi; cases i <;> decide) (by simp [State.depth, hs, hp]) (by simp [State.depth, hs, hp, hq])
      (.inl (by simp [State.depth, hs]))
  have dvn : ∀ {f}, pops i = 2 → pushes i = 1 → i ∈ [Instr.mod, .div] → division i f s = .next t → ExecEnds i s t := by
    intro f hp hq hi hf
    refine two hp hf fun y x rest hs h2 => ?_
    split at h2 <;> cases h2
    · exact .fault _ _ (by decide) (fun h => absurd h (by decide)) (fun _ => rfl)
    · exact .stack _ (by revert hi; cases i <;> decide) (by simp [State.depth, hs, hp])
        (by simp [State.depth, hs, hp, hq]) (.inl (by simp [State.depth, hs]))
  have digit : pops i = 0 → pushes i = 1 →
      i ∈ [Instr.push0, .push1, .push2, .push3, .push4, .push5, .push6, .push7, .push8, .push9] →
      pushDigit i s = .next t → ExecEnds i s t := by
    intro hp hq hi hf
    rcases pushDigit_cases hf with ⟨h1, rfl⟩ | ⟨h1, rfl⟩
    · exact .fault _ _ (by decide) (fun h => absurd h (by decide)) (fun _ => rfl)
    · refine .stack _ (by revert hi; cases i <;> decide) (by omega) (by simp [State.depth, hp, hq]) (.inr ?_)
      simp only [State.depth, hp, hq] at h1
      simp only [List.length_cons]
      omega
  have read : ∀ k, (k = IoKind.int ∧ i = .innum ∨ k = .char ∧ i = .inchr) → s.depth + 1 ≤ s.par.stackDepth →
      transfer (.read k) s = .next t → ExecEnds i s t := by
    intro k hk hd hf
    rcases transfer_cases hf with rfl | ⟨k', hq, -, rfl⟩ | ⟨hq, -, -, rfl⟩ | ⟨_, _, hq, -, rfl⟩
    · exact .waitsForAnswer k hk hd
    · exact .reads (by tauto) hd
    · cases hq; exact .parseError (by simpa using hk)
    · cases hq
  have write : ∀ k v x rest, s.stack = x :: rest →
      (k = IoKind.int ∧ i = .outnum ∧ v = x ∨ k = .char ∧ i = .outchr ∧ v = zext (low8 x)) →
      transfer (.write k v) s = .next t → ExecEnds i s t := by
    intro k v x rest hs hk hf
    rcases transfer_cases hf with rfl | ⟨k', hq, -, rfl⟩ | ⟨hq, -, -, rfl⟩ | ⟨_, _, hq, -, rfl⟩
    · exact .waitsToSend k v x rest hs hk
    · cases hq
    · cases hq
    · exact .writes _ x rest hs (by tauto)
  cases i
  case nop => cases h; exact .nop rfl
  case not =>
    refine one rfl h fun x rest hs h2 => ?_
    cases h2
    exact .stack _ (by decide) (by simp [State.depth, hs, pops]) (by simp [State.depth, hs, pops, pushes])
      (.inl (by simp [State.depth, hs]))
  case str => cases h; exact .str rfl
  case bridge => cases h; exact .bridge rfl
  case drop =>
    refine one rfl h fun x rest hs h2 => ?_
    cases h2
    exact .stack _ (by decide) (by simp [State.depth, hs, pops]) (by simp [State.depth, hs, pops, pushes])
      (.inl (by simp [State.depth, hs]))
  case mod => exact dvn rfl rfl (by decide) h
  case innum =>
    rcases roomFor_cases h with ⟨h1, rfl⟩ | ⟨h1, h2⟩
    · exact .fault _ _ (by decide) (fun h => absurd h (by decide)) (fun _ => rfl)
    · exact read .int (.inl ⟨rfl, rfl⟩) h1 h2
  case mul => exact bin rfl rfl (by decide) h
  case add => exact bin rfl rfl (by decide) h
  case outchr =>
    exact one rfl h fun x rest hs h2 => write .char _ x rest hs (.inr ⟨rfl, rfl, rfl⟩) h2
  case sub => exact bin rfl rfl (by decide) h
  case outnum =>
    exact one rfl h fun x rest hs h2 => write .int _ x rest hs (.inl ⟨rfl, rfl, rfl⟩) h2
  case div => exact dvn rfl rfl (by decide) h
  case push0 => exact digit rfl rfl (by decide) h
  case push1 => exact digit rfl rfl (by decide) h
  case push2 => exact digit rfl rfl (by decide) h
  case push3 => exact digit rfl rfl (by decide) h
  case push4 => exact digit rfl rfl (by decide) h
  case push5 => exact digit rfl rfl (by decide) h
  case push6 => exact digit rfl rfl (by decide) h
  case push7 => exact digit rfl rfl (by decide) h
  case push8 => exact digit rfl rfl (by decide) h
  case push9 => exact digit rfl rfl (by decide) h
  case dup =>
    refine one rfl h fun x rest hs h2 => ?_
    rcases roomFor_cases h2 with ⟨h1, rfl⟩ | ⟨h1, h3⟩
    · exact .fault _ _ (by decide) (fun h => absurd h (by decide)) (fun _ => rfl)
    · cases h3
      refine .stack _ (by decide) (by simp [State.depth, hs, pops]) (by simp [State.depth, hs, pops, pushes]) (.inr ?_)
      simp only [State.depth, hs, pops, pushes, List.length_cons] at h1 ⊢
      omega
  case left => cases h; exact .turn _ (by simp)
  case right => cases h; exact .turn _ (by simp)
  case rand => cases h; exact .random rfl
  case halt => cases h; exact .halt rfl
  case swap =>
    refine two rfl h fun y x rest hs h2 => ?_
    cases h2
    exact .stack _ (by decide) (by simp [State.depth, hs, pops]) (by simp [State.depth, hs, pops, pushes])
      (.inl (by simp [State.depth, hs]))
  case up => cases h; exact .turn _ (by simp)
  case hif => exact one rfl h fun x rest hs h2 => by cases h2; exact .branch x rest _ hs (by simp)
  case gt => exact bin rfl rfl (by decide) h
  case get =>
    refine two rfl h fun y x rest hs h2 => ?_
    split at h2 <;> cases h2
    · exact .fault _ _ (by decide) (fun h => absurd h (by decide)) (fun _ => rfl)
    · exact .stack _ (by decide) (by simp [State.depth, hs, pops]) (by simp [State.depth, hs, pops, pushes])
        (.inl (by simp [State.depth, hs]))
  case put =>
    rcases threeOperands_cases h with ⟨h1, rfl⟩ | ⟨r, c, v, rest, hs, h2⟩
    · exact .fault _ _ (by decide) (fun _ => ⟨h1, rfl⟩) (fun h => absurd rfl h)
    · split at h2
      · cases h2; exact .fault _ _ (by decide) (fun h => absurd h (by decide)) (fun _ => rfl)
      · split at h2 <;> cases h2
        · exact .fault _ _ (by decide) (fun h => absurd h (by decide)) (fun _ => rfl)
        · exact .put _ v r c rest hs ‹_› rfl
  case down => cases h; exact .turn _ (by simp)
  case vif => exact one rfl h fun x rest hs h2 => by cases h2; exact .branch x rest _ hs (by simp)
  case inchr =>
    rcases roomFor_cases h with ⟨h1, rfl⟩ | ⟨h1, h2⟩
    · exact .fault _ _ (by decide) (fun h => absurd h (by decide)) (fun _ => rfl)
    · exact read .char (.inr ⟨rfl, rfl⟩) h1 h2

end Sys2Proof.Machine
end

