-- ==== Sys2Proof/Laws/PerInstr.lean ====
section
/-! SUPPORT. Statements about every instruction as syntax, one lemma per constructor. -/

namespace Sys2Proof.Laws

/-- The byte of the instruction decodes to it (30_encoding.md R81). -/
def RoundTrip.Statement (i : Instr) : Prop := decode (encode i) = some i

namespace RoundTrip

theorem nop : Statement .nop := rfl
theorem not : Statement .not := rfl
theorem str : Statement .str := rfl
theorem bridge : Statement .bridge := rfl
theorem drop : Statement .drop := rfl
theorem mod : Statement .mod := rfl
theorem innum : Statement .innum := rfl
theorem mul : Statement .mul := rfl
theorem add : Statement .add := rfl
theorem outchr : Statement .outchr := rfl
theorem sub : Statement .sub := rfl
theorem outnum : Statement .outnum := rfl
theorem div : Statement .div := rfl
theorem push0 : Statement .push0 := rfl
theorem push1 : Statement .push1 := rfl
theorem push2 : Statement .push2 := rfl
theorem push3 : Statement .push3 := rfl
theorem push4 : Statement .push4 := rfl
theorem push5 : Statement .push5 := rfl
theorem push6 : Statement .push6 := rfl
theorem push7 : Statement .push7 := rfl
theorem push8 : Statement .push8 := rfl
theorem push9 : Statement .push9 := rfl
theorem dup : Statement .dup := rfl
theorem left : Statement .left := rfl
theorem right : Statement .right := rfl
theorem rand : Statement .rand := rfl
theorem halt : Statement .halt := rfl
theorem swap : Statement .swap := rfl
theorem up : Statement .up := rfl
theorem hif : Statement .hif := rfl
theorem gt : Statement .gt := rfl
theorem get : Statement .get := rfl
theorem put : Statement .put := rfl
theorem down : Statement .down := rfl
theorem vif : Statement .vif := rfl
theorem inchr : Statement .inchr := rfl

end RoundTrip

end Sys2Proof.Laws
end

