-- ==== Sys2Proof/Laws/Step.lean ====
section
/-! SUPPORT. What a clock edge can do, said once, and the parameters' bounds as propositions. -/

namespace Sys2Proof

/-- The bounds of 00_scope.md R7. -/
theorem Params.wf_iff (p : Params) :
    p.wf = true ↔
      (1 ≤ p.width ∧ p.width ≤ 2 ^ 31 - 1) ∧ (1 ≤ p.height ∧ p.height ≤ 2 ^ 31 - 1) ∧ 3 ≤ p.stackDepth := by
  simp [Params.wf, Params.widthOk, Params.heightOk, Params.stackDepthOk, and_assoc]

namespace Machine

@[simp] theorem endEdge_next (s : State) : endEdge (.next s) = .next s.afterEdge := rfl

/-- A step answers a next state exactly where its edge does, and then the host's wires have moved on. -/
theorem step_cases {s t : State} (h : step s = .next t) : ∃ u, edge s = .next u ∧ t = u.withEnv u.env.afterEdge := by
  unfold step endEdge at h
  split at h <;> cases h
  exact ⟨_, ‹_›, rfl⟩

/-- What one edge does, by the reset wire, the run state and the pending request (10_state.md R29). -/
theorem edge_cases {s t : State} (h : edge s = .next t) :
    s.pins.rst = true ∧ t = State.resetWith s.par s.env ∨
      s.pins.rst = false ∧
        (s.run = .idle ∧ t = s.idleEdge ∨
          (∃ q, s.run = .run ∧ s.pending = some q ∧ transfer q s = .next t) ∨
          (s.run = .run ∧ s.pending = none ∧ coreStep s = .next t) ∨
          (s.run = .halted ∨ s.run = .faulted) ∧ t = s) := by
  unfold edge at h
  split at h
  · exact .inl ⟨‹_›, by cases h; rfl⟩
  · refine .inr ⟨by simp_all, ?_⟩
    split at h
    · exact .inl ⟨‹_›, by cases h; rfl⟩
    · split at h
      · exact .inr (.inl ⟨_, ‹_›, ‹_›, h⟩)
      · exact .inr (.inr (.inl ⟨‹_›, ‹_›, h⟩))
    · exact .inr (.inr (.inr ⟨.inl ‹_›, by cases h; rfl⟩))
    · exact .inr (.inr (.inr ⟨.inr ‹_›, by cases h; rfl⟩))

/-- A core step dispatches the byte it advanced onto (40_dispatch.md R101). -/
theorem coreStep_cases {s t : State} (h : coreStep s = .next t) :
    (advance s.par s.dir s.pc).valid s.par ∧
      dispatch (s.readCell (advance s.par s.dir s.pc)) (s.withPc (advance s.par s.dir s.pc)) = .next t := by
  unfold coreStep fetchAndDispatch at h
  by_cases hv : (advance s.par s.dir s.pc).valid s.par
  · rw [State.advanced_eq, State.fetch_of_valid hv] at h
    exact ⟨hv, h⟩
  · rw [State.advanced_eq, State.fetch, State.withPc_pc, State.withPc_par, if_neg hv] at h
    cases h

/-- What a dispatched byte does (40_dispatch.md R101 to R104, R107). -/
theorem dispatch_cases {op : Byte} {s t : State} (h : dispatch op s = .next t) :
    (s.sm = true ∧ op = quoteByte ∧ t = s.withSm false) ∨
      (s.sm = true ∧ op ≠ quoteByte ∧ s.par.stackDepth < s.depth + 1 ∧ t = s.faulted .stackOverflow op 0) ∨
      (s.sm = true ∧ op ≠ quoteByte ∧ s.depth + 1 ≤ s.par.stackDepth ∧ t = s.withStack (zext op :: s.stack)) ∨
      (s.sm = false ∧ decode op = none ∧ t = s.faulted .unknownInstruction op 0) ∨
      ∃ i, s.sm = false ∧ decode op = some i ∧ exec i s = .next t := by
  unfold dispatch at h
  split at h
  · unfold stringCell at h
    split at h
    · exact .inl ⟨‹_›, ‹_›, by cases h; rfl⟩
    · rcases roomFor_cases h with ⟨h1, h2⟩ | ⟨h1, h2⟩
      · exact .inr (.inl ⟨‹_›, ‹_›, by omega, h2⟩)
      · exact .inr (.inr (.inl ⟨‹_›, ‹_›, by omega, by cases h2; rfl⟩))
  · unfold execute at h
    split at h
    · exact .inr (.inr (.inr (.inr ⟨_, by simp_all, ‹_›, h⟩)))
    · exact .inr (.inr (.inr (.inl ⟨by simp_all, ‹_›, by cases h; rfl⟩)))

/-! ### Several edges -/

/-- No edge leaves the state as it is. -/
@[simp] theorem core_run_zero (s : State) : Sys2Proof.core.run 0 s = .next s := rfl

/-- A run is its first step and the rest. -/
theorem core_run_next {n : Nat} {s t : State} (h : step s = .next t) :
    Sys2Proof.core.run (n + 1) s = Sys2Proof.core.run n t := by
  have hc : Sys2Proof.core.step s = .next t := h
  simp only [Host.Core.run, hc]

/-! ### IDLE -/

/-- A load-port write changes the grid alone (70_reset_and_hazards.md R263). -/
theorem loadCell_eq (s : State) (c : Coord) (v : Byte) : s.loadCell c v = { s with grid := (s.loadCell c v).grid } := by
  unfold State.loadCell
  split <;> rfl

/-- The load port changes the grid alone. -/
theorem loadEdge_eq (s : State) : s.loadEdge = { s with grid := s.loadEdge.grid } := by
  unfold State.loadEdge
  split
  · exact loadCell_eq _ _ _
  · rfl

/-- The load port keeps the canonical form of the grid. -/
theorem loadEdge_wf {s : State} (h : Memory.wf s.par s.grid) : Memory.wf s.par s.loadEdge.grid := by
  unfold State.loadEdge
  split
  · exact State.loadCell_wf _ _ h
  · exact h

/-- An edge in IDLE while `rst_busy` is 1 (70_reset_and_hazards.md R260). -/
theorem idleEdge_busy {s : State} (h : s.busy ≠ 0) : s.idleEdge = { s with busy := s.busy - 1 } := if_pos h

/-- An edge in IDLE otherwise: the load port and `start` (70_reset_and_hazards.md R263, R266). -/
theorem idleEdge_ready {s : State} (h : s.busy = 0) :
    s.idleEdge = { s with grid := s.loadEdge.grid, run := if s.pins.start then .run else s.run } := by
  unfold State.idleEdge State.startEdge
  rw [if_neg (by omega), loadEdge_eq s]
  by_cases hs : s.pins.start <;> simp [State.pins, State.withRun] at hs ⊢ <;> simp [hs]

end Machine

end Sys2Proof
end

