-- ==== Sys2Proof/Laws/Wires.lean ====
section
/-! SUPPORT. The request the core drives, said once for each case, and what an edge does with it. -/

namespace Sys2Proof.Machine

variable {s t : State} {i : Instr} {q : Request}

/-! ### Which request is driven -/

/-- A waiting request is the one driven (43_io.md R160, R161). -/
theorem request_of_pending (hr : s.run = .run) (hp : s.pending = some q) : s.request = some q := by
  simp [State.request, hr, hp]

/-- With none waiting, a running core drives the request of the step it is about to take. -/
theorem request_of_running (hr : s.run = .run) (hp : s.pending = none) : s.request = s.stepRequest := by
  simp [State.request, hr, hp]

/-- No request is driven outside RUN (10_state.md R29). -/
theorem request_of_not_running (hr : s.run ≠ .run) : s.request = none := by
  unfold State.request
  cases h : s.run <;> first | rfl | exact absurd h hr

/-- A string cell makes no request (40_dispatch.md R103, R104). -/
theorem stepRequest_of_string (hs : s.sm = true) : s.stepRequest = none := if_pos hs

/-- Outside string mode the request is that of the instruction under the advanced pc, if the byte there is one. -/
theorem stepRequest_of_byte (hs : s.sm = false) (hv : (advance s.par s.dir s.pc).valid s.par) :
    s.stepRequest =
      (decode (s.readCell (advance s.par s.dir s.pc))).bind fun i => issued i (s.withPc (advance s.par s.dir s.pc)) := by
  rw [State.stepRequest, if_neg (by simp [hs]), State.advanced_eq, State.fetch_of_valid hv]
  rfl

/-- The request of an instruction does not depend on the pc. -/
@[simp] theorem issued_withPc (c : Coord) : issued i (s.withPc c) = issued i s := rfl

@[simp] theorem issued_innum : issued .innum s = if s.depth < s.par.stackDepth then some (.read .int) else none := rfl
@[simp] theorem issued_inchr : issued .inchr s = if s.depth < s.par.stackDepth then some (.read .char) else none := rfl
@[simp] theorem issued_outnum : issued .outnum s = s.stack.head?.map fun v => .write .int v := rfl
@[simp] theorem issued_outchr : issued .outchr s = s.stack.head?.map fun v => .write .char (zext (low8 v)) := rfl

/-- Only the four instructions of 43_io.md make a request. -/
theorem issued_of_no_io (h : i ∉ [Instr.innum, .inchr, .outnum, .outchr]) : issued i s = none := by
  revert h
  cases i <;> simp [issued]

/-! ### What an edge does with it -/

/-- An instruction that makes a request does nothing but its transfer. -/
theorem exec_of_issued (h : issued i s = some q) : exec i s = transfer q s := by
  cases i <;> first | (simp [issued] at h; done) | skip
  case innum =>
    obtain ⟨hd, rfl⟩ : s.depth < s.par.stackDepth ∧ Request.read .int = q := by simpa using h
    exact roomFor_ok (by simp only [pops, pushes]; omega)
  case inchr =>
    obtain ⟨hd, rfl⟩ : s.depth < s.par.stackDepth ∧ Request.read .char = q := by simpa using h
    exact roomFor_ok (by simp only [pops, pushes]; omega)
  case outnum =>
    obtain ⟨v, hs, rfl⟩ := Option.map_eq_some_iff.1 h
    obtain ⟨rest, hs⟩ := List.head?_eq_some_iff.1 hs
    exact oneOperand_cons hs
  case outchr =>
    obtain ⟨v, hs, rfl⟩ := Option.map_eq_some_iff.1 h
    obtain ⟨rest, hs⟩ := List.head?_eq_some_iff.1 hs
    exact oneOperand_cons hs

/-- An instruction that makes no request leaves the port alone (43_io.md R162). -/
theorem exec_without_request (hn : issued i s = none) (h : exec i s = .next t) :
    t.took = s.took ∧ t.out = s.out ∧ t.pending = s.pending ∧ t.env.answers = s.env.answers := by
  cases exec_ends h with
  | waitsForAnswer k hi hd => rcases hi with ⟨_, rfl⟩ | ⟨_, rfl⟩ <;> simp at hn <;> omega
  | waitsToSend k v x rest hs hi => rcases hi with ⟨_, rfl, _⟩ | ⟨_, rfl, _⟩ <;> simp [hs] at hn
  | reads hi hd => rcases hi with rfl | rfl <;> simp at hn <;> omega
  | writes w x rest hs hi => rcases hi with rfl | rfl <;> simp [hs] at hn
  | parseError hi =>
    subst hi
    rw [exec, execInnum, room, roomFor_full (by simp only [pops, pushes]; simp at hn; omega)] at h
    have := congrArg (fun r => match r with | .next u => u.fault.code | _ => .none) h
    simp at this
  | random => refine ⟨rfl, rfl, rfl, ?_⟩; simp [Env.afterDraw]; split <;> rfl
  | _ => exact ⟨rfl, rfl, rfl, rfl⟩

/-- Without a reset an edge is the transfer of the request the core drives, in the waiting state or in that of the advanced
pc, or, where it drives none, it leaves the port alone (43_io.md R160 to R162). -/
theorem edge_cases_by_request (h : edge s = .next t) (hr : s.pins.rst = false) :
    (∃ q u, s.request = some q ∧ s.run = .run ∧ (u = s ∨ u = s.withPc (advance s.par s.dir s.pc)) ∧
      transfer q u = .next t) ∨
    s.request = none ∧ t.took = s.took ∧ t.out = s.out := by
  rcases edge_cases h with ⟨hrst, -⟩ | ⟨-, ⟨hi, rfl⟩ | ⟨q, hrun, hp, ht⟩ | ⟨hrun, hp, hc⟩ | ⟨hx, rfl⟩⟩
  · rw [hr] at hrst
    cases hrst
  · refine .inr ⟨request_of_not_running (by simp [hi]), ?_⟩
    by_cases hb : s.busy = 0
    · rw [idleEdge_ready hb]
      exact ⟨rfl, rfl⟩
    · rw [idleEdge_busy hb]
      exact ⟨rfl, rfl⟩
  · exact .inl ⟨q, s, request_of_pending hrun hp, hrun, .inl rfl, ht⟩
  · obtain ⟨hv, hd⟩ := coreStep_cases hc
    rw [request_of_running hrun hp]
    rcases dispatch_cases hd with
      ⟨hsm, -, rfl⟩ | ⟨hsm, -, -, rfl⟩ | ⟨hsm, -, -, rfl⟩ | ⟨hsm, hb, rfl⟩ | ⟨i, hsm, hb, hx⟩
    · exact .inr ⟨stepRequest_of_string hsm, rfl, rfl⟩
    · exact .inr ⟨stepRequest_of_string hsm, rfl, rfl⟩
    · exact .inr ⟨stepRequest_of_string hsm, rfl, rfl⟩
    · exact .inr ⟨by rw [stepRequest_of_byte (s := s) hsm hv, hb]; rfl, rfl, rfl⟩
    · rw [stepRequest_of_byte (s := s) hsm hv, hb, Option.bind_some]
      cases hi : issued i (s.withPc (advance s.par s.dir s.pc)) with
      | none =>
        obtain ⟨htook, hout, -⟩ := exec_without_request hi hx
        exact .inr ⟨rfl, htook, hout⟩
      | some q => exact .inl ⟨q, _, rfl, hrun, .inr rfl, exec_of_issued hi ▸ hx⟩
  · exact .inr ⟨request_of_not_running (by rcases hx with h | h <;> simp [h]), rfl, rfl⟩

end Sys2Proof.Machine
end

