-- ==== Sys2Proof/Tests/Slice0.lean ====
section
/-! SUPPORT. The model's own tests: ill-formed parameters, the words of the encoding, one step on a small state for each
instruction (expected values from 95_test_vectors.md or by hand from the rules), and for every statement with hypotheses a
state that meets them. -/

namespace Sys2Proof.Tests

open Sys2Proof.Machine

/-! ### Helpers -/

/-- A grid of 3 rows and 4 columns (vector V-ADV-2), a stack of 4 entries. -/
def small : Params :=
  { width := 4, height := 3, blank := 0x20, stackDepth := 4, putPolicy := .truncate, clearEdges := 0 }

/-- A running core on that grid, about to advance from (0, 3) onto (0, 0), with byte b there. -/
def cpu (b : Byte) (st : List Word) : State :=
  { State.resetWith small Env.initial with grid := Memory.write 0x20 [] 0 b, stack := st, run := .run }

/-- The same core with the wires of one scheduled edge. -/
def cpuPins (b : Byte) (st : List Word) (p : Pins) : State :=
  { cpu b st with env := { Env.initial with edges := [p] } }

/-- The next state, if there is one. -/
def answered : Result → Option State
  | .next s => some s
  | _ => none

/-- The state after one step. -/
def after (s : State) : Option State := answered (step s)

/-- The stack after one step. -/
def stackAfter (s : State) : Option (List Word) := (after s).map fun t => t.stack

/-- The fault code and the need count after one step, if the core is in FAULTED. -/
def faultAfter (s : State) : Option (FaultCode × BitVec 2) :=
  match after s with
  | some t => if t.run = .faulted then some (t.fault.code, t.fault.need) else none
  | none => none

/-! ### WellFormed: each check refuses an ill-formed term (00_scope.md R7) -/

theorem test_width_zero_refused : ({ small with width := 0 } : Params).wf = false := by decide
theorem test_width_too_large_refused : ({ small with width := 2 ^ 31 } : Params).wf = false := by decide
theorem test_height_zero_refused : ({ small with height := 0 } : Params).wf = false := by decide
theorem test_height_too_large_refused : ({ small with height := 2 ^ 31 } : Params).wf = false := by decide
theorem test_stack_depth_two_refused : ({ small with stackDepth := 2 } : Params).wf = false := by decide
theorem test_smallest_parameters_accepted :
    ({ small with width := 1, height := 1, stackDepth := 3 } : Params).wf = true := by decide

/-! ### Decoding: every instruction's byte, written out bit by bit from 30_encoding.md R81 -/

theorem test_decode_punctuation :
    decode 0b00100000 = some .nop ∧ decode 0b00100001 = some .not ∧ decode 0b00100010 = some .str ∧
      decode 0b00100011 = some .bridge ∧ decode 0b00100100 = some .drop ∧ decode 0b00100101 = some .mod ∧
      decode 0b00100110 = some .innum ∧ decode 0b00101010 = some .mul ∧ decode 0b00101011 = some .add ∧
      decode 0b00101100 = some .outchr ∧ decode 0b00101101 = some .sub ∧ decode 0b00101110 = some .outnum ∧
      decode 0b00101111 = some .div := by decide

theorem test_decode_digits :
    decode 0b00110000 = some .push0 ∧ decode 0b00110001 = some .push1 ∧ decode 0b00110010 = some .push2 ∧
      decode 0b00110011 = some .push3 ∧ decode 0b00110100 = some .push4 ∧ decode 0b00110101 = some .push5 ∧
      decode 0b00110110 = some .push6 ∧ decode 0b00110111 = some .push7 ∧ decode 0b00111000 = some .push8 ∧
      decode 0b00111001 = some .push9 ∧ decode 0b00111010 = some .dup := by decide

theorem test_decode_the_rest :
    decode 0b00111100 = some .left ∧ decode 0b00111110 = some .right ∧ decode 0b00111111 = some .rand ∧
      decode 0b01000000 = some .halt ∧ decode 0b01011100 = some .swap ∧ decode 0b01011110 = some .up ∧
      decode 0b01011111 = some .hif ∧ decode 0b01100000 = some .gt ∧ decode 0b01100111 = some .get ∧
      decode 0b01110000 = some .put ∧ decode 0b01110110 = some .down ∧ decode 0b01111100 = some .vif ∧
      decode 0b01111110 = some .inchr := by decide

/-- Vector V-ILL-4, and the neighbours of the table's rows (30_encoding.md R85). -/
theorem test_illegal_bytes_refused :
    ∀ b ∈ ([0x00, 0x1F, 0x27, 0x29, 0x3B, 0x3D, 0x41, 0x5B, 0x5D, 0x61, 0x66, 0x68, 0x6F, 0x71, 0x75, 0x77, 0x78, 0x7B,
      0x7D, 0x7F, 0xFF] : List Byte), decode b = none := by decide

theorem test_table_words : decodeTableWord 8 0x2B = some .add ∧ decodeTableWord 8 0x41 = none := by decide

/-- The step after reset with a word placed runs it: `9` (0x39) pushes 9 (70_reset_and_hazards.md R262). -/
theorem test_fetch_word_runs_first :
    (after (State.reset.withFetchWord 8 0x39)).map (fun t => (t.stack, t.pc)) = some ([9], ⟨0, 0⟩) := by decide

/-! ### The step (40_dispatch.md) -/

/-- Vector V-ADV-2. -/
theorem test_advance_wraps :
    advance small .right ⟨0, 3⟩ = ⟨0, 0⟩ ∧ advance small .left ⟨0, 0⟩ = ⟨0, 3⟩ ∧
      advance small .down ⟨2, 1⟩ = ⟨0, 1⟩ ∧ advance small .up ⟨0, 1⟩ = ⟨2, 1⟩ := by decide

/-- Vectors E1 and E12. -/
theorem test_advance_default_grid :
    advance Params.default .up ⟨0, 7⟩ = ⟨24, 7⟩ ∧ (advance Params.default .up)^[4] ⟨3, 5⟩ = ⟨24, 5⟩ ∧
      advance Params.default .left ⟨5, 0⟩ = ⟨5, 79⟩ := by decide

/-- Vector V-ILL-1: `x` raises UnknownInstruction at (0, 0). -/
theorem test_illegal_byte_faults :
    (after (cpu 0x78 [])).map (fun t => (t.run, t.fault, t.pc)) =
      some (.faulted, { code := .unknownInstruction, op := 0x78, need := 0, depth := 0 }, ⟨0, 0⟩) := by decide

/-- Vector V-ILL-3: in string mode the same byte is data. -/
theorem test_string_cell_is_data : stackAfter { cpu 0x78 [] with sm := true } = some [120] := by decide

/-- A quote ends string mode and pushes nothing (R104), on a full stack too. -/
theorem test_quote_ends_string_mode :
    (after { cpu 0x22 [1, 2, 3, 4] with sm := true }).map (fun t => (t.sm, t.stack, t.run)) =
      some (false, [1, 2, 3, 4], .run) := by decide

/-- Vector V-LIT-6: a full stack stops a string literal with `sm` still 1. -/
theorem test_string_cell_overflows :
    (after { cpu 0x64 [1, 2, 3, 4] with sm := true }).map (fun t => (t.fault, t.sm, t.stack)) =
      some ({ code := .stackOverflow, op := 0x64, need := 0, depth := 4 }, true, [1, 2, 3, 4]) := by decide

/-! ### Control flow (41_control_flow.md) -/

theorem test_setters_write_dir :
    (after (cpu 0x5E [])).map (fun t => t.dir) = some .up ∧ (after (cpu 0x76 [])).map (fun t => t.dir) = some .down ∧
      (after { cpu 0x3E [] with dir := .down, pc := ⟨2, 0⟩ }).map (fun t => t.dir) = some .right ∧
      (after (cpu 0x3C [])).map (fun t => t.dir) = some .left := by decide

/-- A setter moves the pc by the old direction's advance only (R130). -/
theorem test_setter_keeps_pc : (after (cpu 0x5E [])).map (fun t => t.pc) = some ⟨0, 0⟩ := by decide

/-- Vector V-CF-1 and the rule's example: stack [7] gives Left. -/
theorem test_hif_nonzero_is_left :
    (after (cpu 0x5F [7])).map (fun t => (t.dir, t.stack)) = some (.left, []) := by decide
theorem test_hif_zero_is_right :
    (after (cpu 0x5F [0, 5])).map (fun t => (t.dir, t.stack)) = some (.right, [5]) := by decide
theorem test_vif_zero_is_down :
    (after (cpu 0x7C [0, 3])).map (fun t => (t.dir, t.stack)) = some (.down, [3]) := by decide
theorem test_vif_negative_is_up : (after (cpu 0x7C [-1])).map (fun t => t.dir) = some .up := by decide

/-- Vectors V-CF-5 to V-CF-7. -/
theorem test_rand_takes_the_draw :
    ([0b00, 0b01, 0b10, 0b11] : List (BitVec 2)).map
      (fun d => (after (cpuPins 0x3F [] { Pins.quiet with rnd := d })).map fun t => t.dir) =
      [some .right, some .down, some .left, some .up] := by decide
theorem test_rand_next_draw :
    (after { cpu 0x3F [] with env := { Env.initial with draws := [0b01, 0b11] } }).map
      (fun t => (t.dir, t.env.draws)) = some (.down, [0b11]) := by decide

/-- Vector V-CF-12: a non-empty stack at halt is no error. -/
theorem test_halt :
    (after (cpu 0x40 [2, 1])).map (fun t => (t.run, t.stack, t.pc)) = some (.halted, [2, 1], ⟨0, 0⟩) := by decide

/-- `#` at (0, 0) moves the pc to (0, 1) (R128). -/
theorem test_bridge : (after (cpu 0x23 [])).map (fun t => t.pc) = some ⟨0, 1⟩ := by decide
/-- `#` on column W-1 skips column 0. -/
theorem test_bridge_wraps :
    (answered (exec .bridge { cpu 0x20 [] with pc := ⟨1, 3⟩ })).map (fun t => t.pc) = some ⟨1, 0⟩ := by decide
theorem test_nop : after (cpu 0x20 [5]) = some { cpu 0x20 [5] with pc := ⟨0, 0⟩ } := by decide

/-! ### Literals (42_literals.md) -/

/-- Vector V-LIT-1. -/
theorem test_digits :
    ([0x30, 0x31, 0x32, 0x33, 0x34, 0x35, 0x36, 0x37, 0x38, 0x39] : List Byte).map (fun b => stackAfter (cpu b [])) =
      ([0, 1, 2, 3, 4, 5, 6, 7, 8, 9] : List Word).map (fun v => some [v]) := by decide

/-- Vector V-LIT-3. -/
theorem test_digit_overflows :
    (after (cpu 0x31 [1, 1, 1, 1])).map (fun t => (t.fault, t.stack)) =
      some ({ code := .stackOverflow, op := 0x31, need := 0, depth := 4 }, [1, 1, 1, 1]) := by decide
theorem test_str : (after (cpu 0x22 [])).map (fun t => (t.sm, t.stack)) = some (true, []) := by decide

/-! ### Input and output (43_io.md) -/

/-- The rule's example: stack [1], answered with -7. -/
theorem test_innum :
    (after { cpu 0x26 [1] with env := { Env.initial with answers := [⟨false, -7⟩] } }).map
      (fun t => (t.stack, t.took, t.env.answers)) = some ([-7, 1], [⟨false, -7⟩], []) := by decide
theorem test_innum_parse_error :
    (after (cpuPins 0x26 [1] { Pins.quiet with inValid := true, inErr := true })).map (fun t => (t.fault, t.stack)) =
      some ({ code := .parseError, op := 0x26, need := 0, depth := 1 }, [1]) := by decide
/-- A code point above 255 is pushed as it is, and `in_err` is ignored (R160, R164). -/
theorem test_inchr :
    stackAfter (cpuPins 0x7E [] { Pins.quiet with inValid := true, inErr := true, inData := 0x1F600 }) =
      some [0x1F600] := by decide
theorem test_inchr_waits :
    (after (cpu 0x7E [5])).map (fun t => (t.pending, t.stack, t.inReq, t.inKind)) =
      some (some (.read .char), [5], true, some 1) := by decide
/-- With a full stack the fault comes before the request (R163): the answer is not taken. -/
theorem test_full_stack_takes_no_input :
    (after { cpu 0x26 [1, 2, 3, 4] with env := { Env.initial with answers := [⟨false, 9⟩] } }).map
      (fun t => (t.fault.code, t.took, t.env.answers)) = some (.stackOverflow, [], [⟨false, 9⟩]) := by decide
theorem test_outnum :
    (after (cpu 0x2E [9])).map (fun t => (t.out, t.stack)) = some ([⟨.int, 9⟩], []) := by decide
/-- 321 and -1 send 0x41 and 0xFF (R166). -/
theorem test_outchr :
    (after (cpu 0x2C [321])).map (fun t => t.out) = some [⟨.char, 0x41⟩] ∧
      (after (cpu 0x2C [-1])).map (fun t => t.out) = some [⟨.char, 0xFF⟩] := by decide
/-- The issuing cycle: the request shows before the edge at which it may be met (10_state.md R36, R160, R161). -/
theorem test_input_shows_when_issued :
    ((cpu 0x26 [5]).inReq, (cpu 0x26 [5]).inKind) = (true, some 0) ∧
      ((cpu 0x7E [1, 2, 3]).inReq, (cpu 0x7E [1, 2, 3]).inKind) = (true, some 1) ∧
      (cpu 0x7E [1, 2, 3, 4]).inReq = false ∧ ({ cpu 0x26 [5] with sm := true } : State).inReq = false := by decide
theorem test_output_shows_when_issued :
    ((cpu 0x2E [9]).outValid, (cpu 0x2E [9]).outKind, (cpu 0x2E [9]).outData) = (true, some 0, some 9) ∧
      ((cpu 0x2C [321]).outValid, (cpu 0x2C [321]).outKind, (cpu 0x2C [321]).outData) = (true, some 1, some 0x41) ∧
      (cpu 0x2C []).outValid = false ∧ ({ cpu 0x2E [9] with run := .halted } : State).outValid = false := by decide
theorem test_output_waits :
    (after (cpuPins 0x2C [321, 5] Pins.quiet)).map (fun t => (t.stack, t.out, t.outData)) =
      some ([321, 5], [], some 0x41) := by decide

/-! ### Arithmetic (44_arithmetic.md) -/

theorem test_add : stackAfter (cpu 0x2B [4, 5]) = some [9] := by decide
theorem test_add_wraps : stackAfter (cpu 0x2B [1, 2147483647]) = some [-2147483648] := by decide
theorem test_sub : stackAfter (cpu 0x2D [2, 5, 8]) = some [3, 8] := by decide
theorem test_sub_wraps : stackAfter (cpu 0x2D [1, -2147483648]) = some [2147483647] := by decide
theorem test_mul : stackAfter (cpu 0x2A [8, 4]) = some [32] := by decide
theorem test_mul_wraps : stackAfter (cpu 0x2A [32768, 65536]) = some [-2147483648] := by decide
/-- The sign table of R188. -/
theorem test_div :
    ([(2, 7), (2, -7), (-2, 7), (-2, -7), (5, 0), (-1, -2147483648)] : List (Word × Word)).map
      (fun o => stackAfter (cpu 0x2F [o.1, o.2])) =
      ([3, -3, -3, 3, 0, -2147483648] : List Word).map fun v => some [v] := by decide
theorem test_mod :
    ([(2, 7), (2, -7), (-2, 7), (-2, -7), (5, 0), (-1, -2147483648)] : List (Word × Word)).map
      (fun o => stackAfter (cpu 0x25 [o.1, o.2])) =
      ([1, -1, 1, -1, 0, 0] : List Word).map fun v => some [v] := by decide
/-- Vector E8: 3 and 0, then `/`. -/
theorem test_div_by_zero :
    (after (cpu 0x2F [0, 3])).map (fun t => (t.fault, t.stack)) =
      some ({ code := .divisionByZero, op := 0x2F, need := 0, depth := 2 }, [0, 3]) := by decide
theorem test_mod_by_zero : faultAfter (cpu 0x25 [0, 0]) = some (.divisionByZero, 0) := by decide
theorem test_gt : stackAfter (cpu 0x60 [1, 2]) = some [1] ∧ stackAfter (cpu 0x60 [2, 2]) = some [0] := by decide
/-- The compare is signed: -1 > 0 is false. -/
theorem test_gt_signed : stackAfter (cpu 0x60 [0, -1]) = some [0] := by decide
theorem test_not : stackAfter (cpu 0x21 [0]) = some [1] ∧ stackAfter (cpu 0x21 [-1]) = some [0] := by decide

/-! ### Stack (45_stack.md) -/

theorem test_dup : stackAfter (cpu 0x3A [5]) = some [5, 5] := by decide
theorem test_dup_overflows : faultAfter (cpu 0x3A [1, 2, 3, 4]) = some (.stackOverflow, 0) := by decide
theorem test_swap : stackAfter (cpu 0x5C [2, 1]) = some [1, 2] := by decide
theorem test_drop : stackAfter (cpu 0x24 [9, 4]) = some [4] := by decide

/-- Vector E3: every need count. -/
theorem test_underflow_need_counts :
    (∀ b ∈ ([0x5F, 0x7C, 0x2E, 0x2C, 0x21, 0x3A, 0x24] : List Byte), faultAfter (cpu b []) = some (.stackUnderflow, 1)) ∧
      (∀ b ∈ ([0x2B, 0x2D, 0x2A, 0x2F, 0x25, 0x60, 0x5C, 0x67] : List Byte),
        faultAfter (cpu b [0]) = some (.stackUnderflow, 2)) ∧
      faultAfter (cpu 0x70 [0, 0]) = some (.stackUnderflow, 3) := by decide

/-! ### Grid access (46_grid_access.md) -/

/-- Vector of R210: `g` on (0, 0) pushes the cell's own byte; 0xFF is 255, not -1. -/
theorem test_get :
    stackAfter (cpu 0x67 [0, 0]) = some [0x67] ∧
      stackAfter { cpu 0x67 [2, 3] with grid := [(0, 0x67), (11, 0xFF)] } = some [255] := by decide
/-- Coordinates are not wrapped: (0, W) and (-1, 0) fault. -/
theorem test_get_out_of_bounds :
    faultAfter (cpu 0x67 [0, 4]) = some (.outOfBounds, 0) ∧ faultAfter (cpu 0x67 [-1, 0]) = some (.outOfBounds, 0) ∧
      faultAfter (cpu 0x67 [3, 0]) = some (.outOfBounds, 0) := by decide
/-- The row is popped first, then the column, then the value (R212): 321 writes 0x41 at (2, 3). -/
theorem test_put :
    (after (cpu 0x70 [2, 3, 321])).map (fun t => (t.readCell ⟨2, 3⟩, t.readCell ⟨0, 0⟩, t.stack, t.grid)) =
      some (0x41, 0x70, [], [(0, 0x70), (11, 0x41)]) := by decide
theorem test_put_rejects :
    faultAfter { cpu 0x70 [0, 0, 256] with par := { small with putPolicy := .fault } } = some (.putValueRange, 0) ∧
      faultAfter { cpu 0x70 [0, 4, 256] with par := { small with putPolicy := .fault } } = some (.outOfBounds, 0) ∧
      faultAfter { cpu 0x70 [0, 0, 255] with par := { small with putPolicy := .fault } } = none := by decide
/-- Writing BLANK removes the entry, so that equal grids are equal data (log 11). -/
theorem test_write_blank_unlists :
    Memory.write 0x20 [(0, 0x70), (11, 0x41)] 11 0x20 = [(0, 0x70)] ∧
      Memory.write 0x20 [(0, 0x70), (11, 0x41)] 5 0x33 = [(0, 0x70), (5, 0x33), (11, 0x41)] := by decide

/-! ### Reset and loading (70_reset_and_hazards.md) -/

/-- `rst` withdraws a waiting word and clears the grid. -/
theorem test_reset_withdraws :
    (after { cpuPins 0x2E [9] { Pins.quiet with rst := true, outReady := true } with
      pending := some (.write .int 9) }).map (fun t => (t.run, t.pending, t.out, t.readCell ⟨0, 0⟩)) =
      some (.idle, none, [], 0x20) := by decide

/-- Lines end at LF, one CR is removed, bytes beyond W = 4 and lines beyond H = 3 are dropped (R264). -/
theorem test_loader_lines :
    textLines small [0x31, 0x0D, 0x0A, 0x32, 0x33, 0x34, 0x35, 0x36, 0x0A, 0x0D, 0x0D, 0x0A, 0x37] =
      [[0x31], [0x32, 0x33, 0x34, 0x35], [0x0D]] := by decide

/-- The boot order on the text `ab` / `c` (vector E4), with two edges of `rst_busy`. -/
theorem test_boot :
    (answered (Sys2Proof.core.run (bootEdges { small with clearEdges := 2 } [0x61, 0x62, 0x0A, 0x63]).length
      (State.boot { small with clearEdges := 2 } Env.initial [0x61, 0x62, 0x0A, 0x63]))).map
      (fun t => (t.run, t.grid, t.pc, t.busy, t.env.edges.length)) =
      some (.run, [(0, 0x61), (1, 0x62), (4, 0x63)], ⟨0, 3⟩, 0, 0) := by decide

/-! ### The hypotheses of the statements can be met

For each statement with hypotheses, a state and operands that meet them together, at the boundary where a clause has one. -/

/-- Every state of the helper form meets the invariant. -/
theorem cpu_inv {b : Byte} {st : List Word} (hg : Memory.wf small (cpu b st).grid) (hd : st.length ≤ 4) : (cpu b st).Inv where
  params := (by decide : small.wf = true)
  grid := hg
  depth := hd
  pc := (by decide : Coord.valid small ⟨0, 3⟩)
  idle := nofun
  busy := fun h => absurd rfl h
  waiting := nofun
  halted := nofun
  noFault := fun _ => rfl
  faulted := nofun

/-- A core in string mode on the helper's grid, on the cell (0, 0) that holds b, moving Right, with the wires of the coming
edges. -/
def inString (b : Byte) (st : List Word) (edges : List Pins) : State :=
  { cpu b st with pc := ⟨0, 0⟩, sm := true, env := { Env.initial with edges := edges } }

theorem inString_inv {b : Byte} {st : List Word} {edges : List Pins} (hg : Memory.wf small (cpu b st).grid)
    (hd : st.length ≤ 4) : (inString b st edges).Inv where
  params := (by decide : small.wf = true)
  grid := hg
  depth := hd
  pc := (by decide : Coord.valid small ⟨0, 0⟩)
  idle := nofun
  busy := fun h => absurd rfl h
  waiting := nofun
  halted := nofun
  noFault := fun _ => rfl
  faulted := nofun

theorem cpu_stepping (b : Byte) (st : List Word) : (cpu b st).Stepping := ⟨rfl, rfl, rfl⟩

theorem test_meets_DecodeAndEncodeAgree : Instr.inchr.wf = true ∧ decode 0x7E = some .inchr := by decide

theorem test_meets_IllegalBytes :
    (cpu 0x7F [1]).Stepping ∧ (cpu 0x7F [1]).sm = false ∧ (advance small .right ⟨0, 3⟩).valid small ∧
      (cpu 0x7F [1]).readCell (advance small .right ⟨0, 3⟩) = 0x7F ∧ decode 0x7F = none :=
  ⟨cpu_stepping _ _, by decide⟩

/-- The two corners of the grid, for the two advance statements and for BRIDGE on a grid one cell wide or high. -/
theorem test_meets_advance :
    Coord.valid small ⟨0, 0⟩ ∧ Coord.valid small ⟨2, 3⟩ ∧
      (Coord.valid { small with width := 1 } ⟨2, 0⟩ ∧ ({ small with width := 1 } : Params).width = 1) ∧
      Coord.valid { small with height := 1 } ⟨0, 3⟩ ∧ ({ small with height := 1 } : Params).height = 1 := by decide

theorem test_meets_StepRunsTheDecodedInstruction :
    (cpu 0x2B [4, 5]).Stepping ∧ (cpu 0x2B [4, 5]).sm = false ∧ (advance small .right ⟨0, 3⟩).valid small ∧
      decode ((cpu 0x2B [4, 5]).readCell (advance small .right ⟨0, 3⟩)) = some .add :=
  ⟨cpu_stepping _ _, by decide⟩

/-- A quote; a cell with room for one more entry; a cell on a full stack. -/
theorem test_meets_StringCells :
    (∃ s : State, s.Stepping ∧ s.sm = true ∧ (advance s.par s.dir s.pc).valid s.par ∧
      s.readCell (advance s.par s.dir s.pc) = 0x22) ∧
    (∃ s : State, s.Stepping ∧ s.sm = true ∧ (advance s.par s.dir s.pc).valid s.par ∧
      s.readCell (advance s.par s.dir s.pc) = 0x40 ∧ s.stack.length + 1 = s.par.stackDepth) ∧
    ∃ s : State, s.Stepping ∧ s.sm = true ∧ (advance s.par s.dir s.pc).valid s.par ∧
      s.readCell (advance s.par s.dir s.pc) = 0x40 ∧ s.stack.length = s.par.stackDepth :=
  ⟨⟨{ cpu 0x22 [] with sm := true }, ⟨rfl, rfl, rfl⟩, by decide⟩,
    ⟨{ cpu 0x40 [1, 2, 3] with sm := true }, ⟨rfl, rfl, rfl⟩, by decide⟩,
    ⟨{ cpu 0x40 [1, 2, 3, 4] with sm := true }, ⟨rfl, rfl, rfl⟩, by decide⟩⟩

/-- A schedule in which a late `rst` comes after the edges that count, and other wires are driven. -/
def lateReset : List Pins := [{ Pins.starting with inValid := true }, Pins.quiet, Pins.quiet, Pins.quiet,
  { Pins.quiet with rst := true }]

/-- Three cells without a quote, and room for exactly three, under a schedule. -/
theorem test_meets_StringLiteralPushes :
    ∃ s : State, s.Inv ∧ s.run = .run ∧ s.pending = none ∧ s.sm = true ∧ (∀ p ∈ s.env.edges.take 3, p.rst = false) ∧
      s.stack.length + 3 = s.par.stackDepth ∧ ∀ k < 3, s.readCell ((advance s.par s.dir)^[k + 1] s.pc) ≠ 0x22 :=
  ⟨inString 0x22 [7] lateReset, inString_inv (by decide) (by decide), by decide⟩

/-- W = 4 edges without `rst`, and one with it after them. -/
theorem test_meets_StringLiteralEnds :
    ∃ s : State, s.Inv ∧ s.run = .run ∧ s.pending = none ∧ s.sm = true ∧ s.readCell s.pc = 0x22 ∧ s.dir = .right ∧
      ∀ p ∈ s.env.edges.take s.par.width, p.rst = false :=
  ⟨inString 0x22 [] lateReset, inString_inv (by decide) (by decide), by decide⟩

/-- No schedule and no draws: the draw is the free value. -/
theorem test_meets_RandSetsTheDrawnDirection : (cpu 0x3F []).env.edges = [] ∧ (cpu 0x3F []).env.draws = [] := by decide

theorem test_meets_HaltEndsTheRun :
    (∃ s : State, s.run = .halted ∧ s.pins.rst = false) ∧
    ∃ s : State, s.Stepping ∧ s.sm = true ∧ (advance s.par s.dir s.pc).valid s.par ∧
      s.readCell (advance s.par s.dir s.pc) = 0x40 ∧ s.stack.length < s.par.stackDepth :=
  ⟨⟨{ cpu 0x40 [] with run := .halted }, by decide⟩, ⟨{ cpu 0x40 [] with sm := true }, ⟨rfl, rfl, rfl⟩, by decide⟩⟩

theorem test_meets_NopOnlyAdvances :
    (∃ s : State, s.Stepping ∧ s.sm = false ∧ (advance s.par s.dir s.pc).valid s.par ∧
      s.readCell (advance s.par s.dir s.pc) = 0x20) ∧
    ∃ s : State, s.Stepping ∧ s.sm = true ∧ (advance s.par s.dir s.pc).valid s.par ∧
      s.readCell (advance s.par s.dir s.pc) = 0x20 ∧ s.stack.length < s.par.stackDepth :=
  ⟨⟨cpu 0x20 [], cpu_stepping _ _, by decide⟩, ⟨{ cpu 0x20 [] with sm := true }, ⟨rfl, rfl, rfl⟩, by decide⟩⟩

/-- The last free entry, and a full stack: for the digits and the room clauses of `&`, `~` and `:`. -/
theorem test_meets_room :
    (cpu 0x30 [1, 2, 3]).stack.length + 1 = small.stackDepth ∧ (cpu 0x30 [1, 2, 3, 4]).stack.length = small.stackDepth := by
  decide

/-- An answer, a ParseError, and no answer, each with room. -/
theorem test_meets_input :
    (∃ s : State, s.stack.length < s.par.stackDepth ∧ s.pins.inValid = true ∧ s.pins.inErr = false) ∧
    (∃ s : State, s.stack.length < s.par.stackDepth ∧ s.pins.inValid = true ∧ s.pins.inErr = true) ∧
    ∃ s : State, s.stack.length < s.par.stackDepth ∧ s.pins.inValid = false :=
  ⟨⟨cpuPins 0x26 [] { Pins.quiet with inValid := true }, by decide⟩,
    ⟨cpuPins 0x26 [] { Pins.quiet with inValid := true, inErr := true }, by decide⟩, ⟨cpu 0x26 [1, 2, 3], by decide⟩⟩

/-- A port that accepts and one that does not. -/
theorem test_meets_output : (cpu 0x2E [9]).pins.outReady = true ∧ (cpuPins 0x2E [9] Pins.quiet).pins.outReady = false := by
  decide

/-- A waiting read and a waiting write, with a silent port. -/
theorem test_meets_WaitingTransferHolds :
    (∃ s : State, s.run = .run ∧ s.pending = some (.read .char) ∧ s.pins.rst = false ∧ s.pins.inValid = false) ∧
    ∃ s : State, s.run = .run ∧ s.pending = some (.write .int 9) ∧ s.pins.rst = false ∧ s.pins.outReady = false :=
  ⟨⟨{ cpu 0x7E [] with pending := some (.read .char) }, by decide⟩,
    ⟨{ cpuPins 0x2E [9] Pins.quiet with pending := some (.write .int 9) }, by decide⟩⟩

/-- An answer of each kind, a ParseError, and an accepted word. -/
theorem test_meets_WaitingTransferCompletes :
    (∃ s : State, s.run = .run ∧ s.pins.rst = false ∧ s.pending = some (.read .int) ∧ s.pins.inValid = true ∧
      s.pins.inErr = false) ∧
    (∃ s : State, s.run = .run ∧ s.pins.rst = false ∧ s.pending = some (.read .char) ∧ s.pins.inValid = true ∧
      s.pins.inErr = true) ∧
    (∃ s : State, s.run = .run ∧ s.pins.rst = false ∧ s.pending = some (.read .int) ∧ s.pins.inValid = true ∧
      s.pins.inErr = true) ∧
    ∃ s : State, s.run = .run ∧ s.pins.rst = false ∧ s.pending = some (.write .int 9) ∧ s.pins.outReady = true ∧
      s.stack = [9] :=
  ⟨⟨{ cpuPins 0x26 [] { Pins.quiet with inValid := true } with pending := some (.read .int) }, by decide⟩,
    ⟨{ cpuPins 0x7E [] { Pins.quiet with inValid := true, inErr := true } with pending := some (.read .char) }, by decide⟩,
    ⟨{ cpuPins 0x26 [] { Pins.quiet with inValid := true, inErr := true } with pending := some (.read .int) }, by decide⟩,
    ⟨{ cpu 0x2E [9] with pending := some (.write .int 9) }, by decide⟩⟩

/-- The three classes of OnlyIoInstructionsTouchThePort. -/
theorem test_meets_io_classes :
    Instr.innum ∈ [Instr.innum, .inchr] ∧ Instr.outchr ∈ [Instr.outnum, .outchr] ∧
      Instr.put ∉ [Instr.innum, .inchr, .outnum, .outchr] := by decide

/-- One operand short of two and of three. -/
theorem test_meets_short_stack : (cpu 0x2B [1]).stack.length < 2 ∧ (cpu 0x70 [1, 2]).stack.length < 3 := by decide

/-- A divisor other than 0; the one quotient that overflows, and one that does not. -/
theorem test_meets_division :
    (2 : Word) ≠ 0 ∧ (¬((7 : Word).toInt = -2 ^ 31 ∧ (2 : Word).toInt = -1)) ∧ (-1 : Word) ≠ 0 ∧
      (-2147483648 : Word).toInt = -2 ^ 31 ∧ (-1 : Word).toInt = -1 := by decide

/-- The grid's corners, and the coordinates just outside on each side. -/
theorem test_meets_onGrid :
    onGrid small 0 0 ∧ onGrid small 2 3 ∧ ¬onGrid small 3 3 ∧ ¬onGrid small 2 4 ∧ ¬onGrid small (-1) 0 ∧
      ¬onGrid small 0 (-1) := by decide

/-- The values 255 and 256 and -1 under the FAULT policy, and any value under TRUNCATE. -/
theorem test_meets_PutWritesTheCell :
    Memory.wf small (cpu 0x70 []).grid ∧ small.putPolicy = .truncate ∧
      (0 ≤ (255 : Word).toInt ∧ (255 : Word).toInt ≤ 255) ∧
      ({ small with putPolicy := .fault } : Params).putPolicy = .fault ∧ 255 < (256 : Word).toInt ∧ (-1 : Word).toInt < 0 := by
  decide

/-- A core on a `p` at (0, 0) that is about to write v at (0, 1). -/
def onPut (v : Word) : State := { inString 0x70 [0, 1, v] [] with sm := false }

theorem onPut_inv (v : Word) : (onPut v).Inv where
  params := (by decide : small.wf = true)
  grid := (by decide : Memory.wf small (cpu 0x70 []).grid)
  depth := (by decide : 3 ≤ 4)
  pc := (by decide : Coord.valid small ⟨0, 0⟩)
  idle := nofun
  busy := fun h => absurd rfl h
  waiting := nofun
  halted := nofun
  noFault := fun _ => rfl
  faulted := nofun

/-- The state after that `p`, about to step onto (0, 1), with a string-mode flag and a stack that later steps may have left. -/
def afterPut (v : Word) (sm : Bool) (st : List Word) : State :=
  { onPut v with grid := Memory.write 0x20 (onPut v).grid 1 (v.setWidth 8), sm := sm, stack := st }

/-- A state after the `p` meets the premises of PutIsSeenByTheNextFetch, whatever v, the flag and the stack are. -/
theorem afterPut_meets (v : Word) (sm : Bool) (st : List Word) :
    ∃ (s u t : State) (r c : Word), s.Inv ∧ s.stack = [r, c, v] ∧ onGrid s.par r c ∧ exec .put s = .next u ∧ u.run = .run ∧
      t.par = u.par ∧ t.readCell ⟨r.toInt.toNat, c.toInt.toNat⟩ = u.readCell ⟨r.toInt.toNat, c.toInt.toNat⟩ ∧ t.Stepping ∧
      advance t.par t.dir t.pc = ⟨r.toInt.toNat, c.toInt.toNat⟩ ∧ t.sm = sm ∧ t.stack = st :=
  ⟨onPut v, afterPut v false [], afterPut v sm st, 0, 1, onPut_inv v, rfl, (by decide : onGrid small 0 1), rfl, rfl, rfl, rfl,
    ⟨rfl, rfl, rfl⟩, by rfl, rfl, rfl⟩

/-- Its clauses: `@` and an illegal byte as an instruction; a byte with room, on a full stack, and the quote as data. -/
theorem test_meets_PutIsSeenByTheNextFetch :
    decode ((0x40 : Word).setWidth 8) = some .halt ∧ decode ((0x141 : Word).setWidth 8) = none ∧
      (0x40 : Word).setWidth 8 ≠ (0x22 : Byte) ∧ ([1, 2, 3] : List Word).length + 1 = small.stackDepth ∧
      ([1, 2, 3, 4] : List Word).length = small.stackDepth ∧ (0x122 : Word).setWidth 8 = (0x22 : Byte) := by decide

theorem test_meets_UnderflowRecordsTheNeedCount : (cpu 0x70 [1, 2]).stack.length < pops .put := by decide

theorem test_meets_FirstFailingCheckIsRaised :
    (cpu 0x2F [0, 1, 2, 3]).run = .run ∧ (cpu 0x2F [0, 1, 2, 3]).fault = FaultRecord.clear ∧
      (cpu 0x2F [0, 1, 2, 3]).stack.length ≤ small.stackDepth ∧ decode 0x80 = none := by decide

/-- A fault at a step of the core, and a ParseError that ends a wait. -/
theorem test_meets_FaultsArePrecise :
    (∃ s t : State, s.Inv ∧ s.run = .run ∧ s.pending = none ∧ step s = .next t ∧ t.run = .faulted) ∧
    ∃ s t : State, s.Inv ∧ s.run = .run ∧ s.pending = some (.read .int) ∧ step s = .next t ∧ t.run = .faulted :=
  ⟨⟨cpu 0x2F [0, 3], _, cpu_inv (by decide) (by decide), rfl, rfl, rfl, rfl⟩,
    ⟨{ cpuPins 0x26 [] { Pins.quiet with inValid := true, inErr := true } with
        pending := some (.read .int), pc := ⟨0, 0⟩ }, _,
      { params := by decide, grid := by decide, depth := by decide, pc := by decide, idle := nofun
        busy := fun h => absurd rfl h
        waiting := fun q hq => by cases hq; exact ⟨rfl, rfl, by decide, (by decide : 0 < 4)⟩
        halted := nofun, noFault := fun _ => rfl, faulted := nofun }, rfl, rfl, rfl, rfl⟩⟩

/-- A halted core while the host asserts `start` and `ld_we`. -/
theorem test_meets_EndedRunStaysEnded :
    ∃ s : State, (s.run = .faulted ∨ s.run = .halted) ∧ ∀ p ∈ s.env.edges.take 1, p.rst = false :=
  ⟨{ cpuPins 0x40 [] { Pins.starting with ldWe := true } with run := .halted }, by decide⟩

/-- `rst` in RUN; and an edge with `start` while `rst_busy` is 1. -/
theorem test_meets_ResetFromAnyState :
    (∃ s : State, s.pins.rst = true ∧ s.run = .run) ∧
    ∃ s : State, s.pins.rst = false ∧ s.run = .idle ∧ s.rstBusy = true ∧ s.pins.start = true :=
  ⟨⟨cpuPins 0x20 [] { Pins.quiet with rst := true }, by decide⟩,
    ⟨{ cpuPins 0x20 [] Pins.starting with run := .idle, busy := 1 }, by decide⟩⟩

/-- A core in IDLE, just reset, with the wires of one edge. -/
def idle (p : Pins) : State := State.resetWith small { Env.initial with edges := [p] }

theorem idle_inv (p : Pins) : (idle p).Inv where
  params := (by decide : small.wf = true)
  grid := (by decide : Memory.wf small [])
  depth := Nat.zero_le _
  pc := (by decide : Coord.valid small ⟨0, 3⟩)
  idle := fun _ => ⟨rfl, rfl, rfl, rfl, rfl, rfl⟩
  busy := fun h => absurd rfl h
  waiting := nofun
  halted := nofun
  noFault := fun _ => rfl
  faulted := nofun

/-- The last cell, and the row below it; and a running core with a scheduled edge. -/
theorem test_meets_LoadPortWritesInIdleOnly :
    (∃ s : State, Memory.wf s.par s.grid ∧ s.pins.rst = false ∧ s.run = .idle ∧ s.busy = 0 ∧ s.pins.ldWe = true ∧
      Coord.valid s.par ⟨s.pins.ldRow, s.pins.ldCol⟩) ∧
    (∃ s : State, s.pins.rst = false ∧ s.run = .idle ∧ s.busy = 0 ∧ s.pins.ldWe = true ∧
      ¬Coord.valid s.par ⟨s.pins.ldRow, s.pins.ldCol⟩) ∧
    ∃ s : State, s.run ≠ .idle ∧ s.env.edges = [Pins.quiet] :=
  ⟨⟨idle (Pins.load ⟨2, 3⟩ 0x40), by decide⟩, ⟨idle (Pins.load ⟨3, 0⟩ 0x40), by decide⟩, ⟨cpuPins 0x20 [] Pins.quiet, by decide⟩⟩

theorem test_meets_StartBeginsTheRun :
    (idle Pins.starting).Inv ∧ (idle Pins.starting).pins.rst = false ∧ (idle Pins.starting).run = .idle ∧
      (idle Pins.starting).busy = 0 ∧ (idle Pins.starting).pins.start = true :=
  ⟨idle_inv _, by decide⟩

/-- A step that halts, and one that starts. -/
theorem test_meets_RunStateTransitions :
    (∃ s t : State, s.Inv ∧ step s = .next t ∧ t.run = .halted) ∧ ∃ s t : State, s.Inv ∧ step s = .next t ∧ t.run ≠ s.run :=
  ⟨⟨cpu 0x40 [], _, cpu_inv (by decide) (by decide), rfl, rfl⟩, ⟨idle Pins.starting, _, idle_inv _, rfl, by decide⟩⟩

/-- Lines for a grid of three rows: one with a CR, an empty one, one with two CRs, and a fourth that is dropped. -/
def fourLines : List (List Byte) := [[0x61, 0x0D], [], [0x0D, 0x0D], [0x62]]

/-- A line with a CR, one with two, one without, and a row beyond the lines, at the corners of the grid. -/
theorem test_meets_BootLoadsTheProgramText :
    (fourLines ≠ [] ∧ (∀ l ∈ fourLines, (0x0A : Byte) ∉ l) ∧ fourLines[0]? = some ([0x61] ++ [0x0D]) ∧
      fourLines[2]? = some ([0x0D] ++ [0x0D]) ∧ fourLines[1]? = some []) ∧
    (∀ k, ([] : List Byte) ≠ k ++ [0x0D]) ∧ Coord.valid small ⟨0, 0⟩ ∧ Coord.valid small ⟨2, 3⟩ ∧
    ([[0x61]] : List (List Byte))[1]? = none :=
  ⟨by decide, by simp, by decide⟩

/-- The parameters of the boot statement and of the invariant at reset, at their lower bounds too. -/
theorem test_meets_parameter_bounds :
    Params.default.wf = true ∧ ({ small with width := 1, height := 1, stackDepth := 3 } : Params).wf = true := by decide

theorem test_meets_StepKeepsTheInvariant : (cpu 0x3A [1, 2, 3]).Inv := cpu_inv (by decide) (by decide)

/-- `g` runs to its end: two operands taken, one result put. -/
theorem test_meets_DepthChangesByTheTable :
    ∃ s t : State, s.run = .run ∧ s.pending = none ∧ exec .get s = .next t ∧ t.run ≠ .faulted ∧ t.pending = none :=
  ⟨cpu 0x67 [2, 3], _, rfl, rfl, rfl, by decide, rfl⟩

/-- `p` writes the last cell; the load port writes it. -/
theorem test_meets_GridChangesOneCellAtATime :
    (∃ s t : State, s.Inv ∧ step s = .next t ∧ s.pins.rst = false ∧ s.run = .run ∧ Coord.valid s.par ⟨2, 3⟩ ∧
      t.readCell ⟨2, 3⟩ ≠ s.readCell ⟨2, 3⟩) ∧
    ∃ s t : State, s.Inv ∧ step s = .next t ∧ s.pins.rst = false ∧ s.run = .idle ∧ Coord.valid s.par ⟨2, 3⟩ ∧
      t.readCell ⟨2, 3⟩ ≠ s.readCell ⟨2, 3⟩ :=
  ⟨⟨cpu 0x70 [2, 3, 0x40], _, cpu_inv (by decide) (by decide), rfl, by decide⟩,
    ⟨idle (Pins.load ⟨2, 3⟩ 0x40), _, idle_inv _, rfl, by decide⟩⟩

/-- Each clause: one free entry and a full stack for `&` and `~`, one operand and none for `.` and `,`; another byte; string
mode; outside RUN. -/
theorem test_meets_RequestShowsFromItsIssuingCycle :
    (∀ b ∈ ([0x26, 0x7E] : List Byte), ∀ st ∈ ([[1, 2, 3], [1, 2, 3, 4]] : List (List Word)),
      (advance small .right (cpu b st).pc).valid small ∧ (cpu b st).readCell (advance small .right (cpu b st).pc) = b ∧
        ((cpu b st).stack.length + 1 = small.stackDepth ∨ (cpu b st).stack.length = small.stackDepth)) ∧
    (∀ b ∈ ([0x2E, 0x2C, 0x40] : List Byte), ∀ st ∈ ([[9], []] : List (List Word)),
      (advance small .right (cpu b st).pc).valid small ∧ (cpu b st).readCell (advance small .right (cpu b st).pc) = b) ∧
    (∀ (b : Byte) (st : List Word), (cpu b st).Stepping ∧ (cpu b st).sm = false) ∧
    ({ cpu 0x26 [] with sm := true } : State).Stepping ∧ State.reset.run ≠ .run :=
  ⟨by decide, by decide, fun _ _ => ⟨cpu_stepping _ _, rfl⟩, ⟨rfl, rfl, rfl⟩, by decide⟩

/-- A scheduled edge with no request shown; then each wire met and not met, a waiting request among them. -/
theorem test_meets_PortActsOnAShownRequestOnly :
    (∃ s : State, s.env.edges = [{ Pins.quiet with inValid := true }] ∧ s.inReq = false) ∧
    (∃ s : State, s.env.edges = [{ Pins.quiet with outReady := true }] ∧ s.outValid = false) ∧
    (∃ s t : State, step s = .next t ∧ s.pins.rst = false ∧ s.inReq = true ∧ s.pins.inValid = true) ∧
    (∃ s t : State, step s = .next t ∧ s.pins.rst = false ∧ s.outKind = some (IoKind.code .char) ∧
      s.outData = some 0x41 ∧ s.pins.outReady = true) ∧
    (∃ s t : State, step s = .next t ∧ s.pins.rst = false ∧ s.pending = some (.read .int) ∧ s.inReq = true ∧
      s.pins.inValid = false) ∧
    ∃ s t : State, step s = .next t ∧ s.pins.rst = false ∧ s.outValid = true ∧ s.pins.outReady = false :=
  ⟨⟨cpuPins 0x2E [] { Pins.quiet with inValid := true }, by decide⟩,
    ⟨cpuPins 0x26 [] { Pins.quiet with outReady := true }, by decide⟩,
    ⟨cpuPins 0x26 [] { Pins.quiet with inValid := true }, _, rfl, by decide⟩,
    ⟨cpu 0x2C [321], _, rfl, by decide⟩, ⟨{ cpu 0x26 [] with pending := some (.read .int) }, _, rfl, by decide⟩,
    ⟨cpuPins 0x2E [9] Pins.quiet, _, rfl, by decide⟩⟩

theorem test_meets_PortRecordDoesNotInfluence : ∃ t, step (cpu 0x2E [9]) = .next t := ⟨_, rfl⟩

theorem test_meets_RegistersFitTheirWidths : (cpu 0x20 [1, 2, 3, 4]).Inv ∧ (cpu 0x20 [1, 2, 3, 4]).stack = [1, 2, 3, 4] :=
  ⟨cpu_inv (by decide) (by decide), rfl⟩

end Sys2Proof.Tests
end

section
/-! PROOFS. The advance as arithmetic modulo the size of the grid (40_dispatch.md R100). -/

namespace Sys2Proof.Machine

variable {k n : Nat}

/-- Stepping forward with a wrap at the last index, as Right does on columns and Down on rows, adds 1 modulo the size. -/
theorem wrapSucc_eq_mod (h : k < n) : (if k = n - 1 then 0 else k + 1) = (k + 1) % n := by
  split
  case isTrue hlast =>
    have hn : k + 1 = n := by omega
    rw [hn, Nat.mod_self]
  case isFalse hlast => exact (Nat.mod_eq_of_lt (by omega)).symm

/-- Stepping backward with a wrap at 0, as Left does on columns and Up on rows, subtracts 1 modulo the size: taken as an
integer, because 0 - 1 is negative. -/
theorem wrapPred_eq_emod (h : k < n) : ((if k = 0 then n - 1 else k - 1 : Nat) : Int) = ((k : Int) - 1) % n := by
  split
  case isTrue hfirst =>
    have hlift : ((n - 1 : Nat) : Int) = (k : Int) - 1 + n := by omega
    rw [← Int.add_emod_right, ← hlift, Int.emod_eq_of_lt (by omega) (by omega)]
  case isFalse hfirst =>
    have hpred : ((k - 1 : Nat) : Int) = (k : Int) - 1 := by omega
    rw [← hpred, Int.emod_eq_of_lt (by omega) (by omega)]

/-- Settles O4: the four cases are the rules of `advance`, each wrap is a modular step since the coordinate is valid, and
the advance keeps the coordinate valid. -/
theorem advanceWrapsModuloTheGrid : Obligations.AdvanceWrapsModuloTheGrid := by
  rintro p c ⟨hrow, hcol⟩
  refine ⟨⟨advance_right p c, advance_left p c, advance_down p c, advance_up p c⟩, ⟨?right, ?left, ?down, ?up⟩,
    fun d => advance_valid d ⟨hrow, hcol⟩⟩
  case right => rw [advance_right, wrapSucc_eq_mod hcol, Int.natCast_emod, Nat.cast_add_one]
  case left => rw [advance_left, wrapPred_eq_emod hcol]
  case down => rw [advance_down, wrapSucc_eq_mod hrow, Int.natCast_emod, Nat.cast_add_one]
  case up => rw [advance_up, wrapPred_eq_emod hrow]

end Sys2Proof.Machine
end

section
/-! PROOFS. Every instruction answers a next state. -/

namespace Sys2Proof.Machine

variable {i : Instr} {s : State} {k : Result}

/-- A choice of two results answers a next state when both do. -/
theorem ite_answers {c : Prop} [Decidable c] {a b : Result} (ha : ∃ t, a = .next t) (hb : ∃ t, b = .next t) :
    ∃ t, (if c then a else b) = .next t := by
  split
  · exact ha
  · exact hb

theorem roomFor_answers {popped pushed : Nat} {op : Byte} (hk : ∃ t, k = .next t) :
    ∃ t, roomFor popped pushed op s k = .next t :=
  ite_answers ⟨_, rfl⟩ hk

theorem oneOperand_answers {f : Word → List Word → Result} (hf : ∀ x rest, ∃ t, f x rest = .next t) :
    ∃ t, oneOperand i s f = .next t := by
  unfold oneOperand
  split
  · exact hf _ _
  · exact ⟨_, rfl⟩

theorem twoOperands_answers {f : Word → Word → List Word → Result} (hf : ∀ y x rest, ∃ t, f y x rest = .next t) :
    ∃ t, twoOperands i s f = .next t := by
  unfold twoOperands
  split
  · exact hf _ _ _
  all_goals exact ⟨_, rfl⟩

theorem threeOperands_answers {f : Word → Word → Word → List Word → Result}
    (hf : ∀ a b c rest, ∃ t, f a b c rest = .next t) : ∃ t, threeOperands i s f = .next t := by
  unfold threeOperands
  split
  · exact hf _ _ _ _
  all_goals exact ⟨_, rfl⟩

theorem transfer_answers (q : Request) (s : State) : ∃ t, transfer q s = .next t := by
  match q with
  | .read .int => exact ite_answers (ite_answers ⟨_, rfl⟩ ⟨_, rfl⟩) ⟨_, rfl⟩
  | .read .char => exact ite_answers ⟨_, rfl⟩ ⟨_, rfl⟩
  | .write _ _ => exact ite_answers ⟨_, rfl⟩ ⟨_, rfl⟩

/-- Every instruction has a meaning in every state: a failed check and a waiting transfer are next states too
(60_exceptions.md R240, 43_io.md R162). -/
theorem exec_answers (i : Instr) (s : State) : ∃ t, exec i s = .next t := by
  cases i
  case nop | str | bridge | left | right | up | down | rand | halt => exact ⟨_, rfl⟩
  case push0 | push1 | push2 | push3 | push4 | push5 | push6 | push7 | push8 | push9 =>
    exact roomFor_answers ⟨_, rfl⟩
  case innum | inchr => exact roomFor_answers (transfer_answers _ s)
  case not | drop | hif | vif => exact oneOperand_answers fun _ _ => ⟨_, rfl⟩
  case dup => exact oneOperand_answers fun _ _ => roomFor_answers ⟨_, rfl⟩
  case outnum | outchr => exact oneOperand_answers fun _ _ => transfer_answers _ s
  case add | sub | mul | gt | swap => exact twoOperands_answers fun _ _ _ => ⟨_, rfl⟩
  case div | mod => exact twoOperands_answers fun _ _ _ => ite_answers ⟨_, rfl⟩ ⟨_, rfl⟩
  case get =>
    refine twoOperands_answers fun _ _ _ => ?_
    split
    · exact ⟨_, rfl⟩
    · exact ⟨_, rfl⟩
  case put =>
    refine threeOperands_answers fun _ _ _ _ => ?_
    split
    · exact ⟨_, rfl⟩
    · exact ite_answers ⟨_, rfl⟩ ⟨_, rfl⟩

end Sys2Proof.Machine
end

section
/-! PROOFS. Control flow (41_control_flow.md): the direction setters, the two branches, and who moves the pc. -/

namespace Sys2Proof.Machine

variable {i : Instr} {s t : State}

/-! ### What each instruction does -/

@[simp] theorem exec_up : exec .up s = .next (s.withDir .up) := rfl
@[simp] theorem exec_down : exec .down s = .next (s.withDir .down) := rfl
@[simp] theorem exec_right : exec .right s = .next (s.withDir .right) := rfl
@[simp] theorem exec_left : exec .left s = .next (s.withDir .left) := rfl
@[simp] theorem exec_bridge : exec .bridge s = .next (s.withPc (advance s.par s.dir s.pc)) := rfl

theorem exec_hif : exec .hif s =
    oneOperand .hif s fun x rest => .next ((s.withStack rest).withDir (if isZero x then .right else .left)) := rfl

theorem exec_vif : exec .vif s =
    oneOperand .vif s fun x rest => .next ((s.withStack rest).withDir (if isZero x then .down else .up)) := rfl

/-- The condition of `_` and `|`, on the integer that the word stands for. -/
theorem isZero_iff_toInt {x : Word} : isZero x = true ↔ x.toInt = 0 := by
  rw [isZero, decide_eq_true_iff, ← BitVec.toInt_inj, BitVec.ofNat_eq_ofNat, BitVec.toInt_zero]

/-- With an operand on the stack a branch pops it and takes its first direction on zero, its second on any other value,
negative ones included (41_control_flow.md R124, R125). -/
theorem branch_cons {x : Word} {rest : List Word} (d e : Dir) (hs : s.stack = x :: rest) :
    (oneOperand i s fun x rest => .next ((s.withStack rest).withDir (if isZero x then d else e))) =
      .next ((s.withStack rest).withDir (if x.toInt = 0 then d else e)) := by
  rw [oneOperand_cons hs]
  simp only [isZero_iff_toInt]

/-- On the empty stack an instruction of one operand raises StackUnderflow (60_exceptions.md R231). -/
theorem oneOperand_nil {f : Word → List Word → Result} (hs : s.stack = []) :
    oneOperand i s f = .next (s.faulted .stackUnderflow (encode i) (BitVec.ofNat 2 (pops i))) := by
  rw [oneOperand_short (by simp [State.depth, hs]), underflow_eq]

/-! ### The pc -/

/-- The pc moves in the step's own advance only: no instruction but `#` writes it (41_control_flow.md R130). -/
theorem exec_pc_of_ne_bridge (hi : i ≠ .bridge) (h : exec i s = .next t) : t.pc = s.pc := by
  cases exec_ends h with
  | bridge hb => exact absurd hb hi
  | _ => rfl

/-! ### The advance at the four edges of the grid (40_dispatch.md R100) -/

theorem advance_up_of_top (p : Params) (c : Nat) : advance p .up ⟨0, c⟩ = ⟨p.height - 1, c⟩ := by
  rw [advance_up, if_pos rfl]

theorem advance_down_of_bottom (p : Params) (c : Nat) : advance p .down ⟨p.height - 1, c⟩ = ⟨0, c⟩ := by
  rw [advance_down, if_pos rfl]

theorem advance_right_of_last (p : Params) (r : Nat) : advance p .right ⟨r, p.width - 1⟩ = ⟨r, 0⟩ := by
  rw [advance_right, if_pos rfl]

theorem advance_left_of_first (p : Params) (r : Nat) : advance p .left ⟨r, 0⟩ = ⟨r, p.width - 1⟩ := by
  rw [advance_left, if_pos rfl]

/-! ### The obligations -/

/-- Settles O17: every instruction answers; `#` advances the pc and writes nothing else, and no other way an instruction can
end writes the pc. -/
theorem onlyBridgeMovesThePc : Obligations.OnlyBridgeMovesThePc := by
  intro i s
  obtain ⟨t, ht⟩ := exec_answers i s
  refine ⟨t, ht, fun hi => exec_pc_of_ne_bridge hi ht, ?_⟩
  rintro rfl
  rw [exec_bridge] at ht
  cases ht
  exact ⟨rfl, rfl⟩

/-- Settles O10: each setter is one write of `dir`, and the advance wraps at each edge. -/
theorem directionSettersWriteDir : Obligations.DirectionSettersWriteDir :=
  ⟨⟨Laws.RoundTrip.up, Laws.RoundTrip.down, Laws.RoundTrip.right, Laws.RoundTrip.left⟩,
    fun _ => ⟨exec_up, exec_down, exec_right, exec_left⟩,
    fun p r c => ⟨advance_up_of_top p c, advance_down_of_bottom p c, advance_right_of_last p r, advance_left_of_first p r⟩⟩

/-- Settles O11: a branch with Right on zero and Left otherwise; on the empty stack its need check fails. -/
theorem hifSelectsRightOnZero : Obligations.HifSelectsRightOnZero :=
  ⟨Laws.RoundTrip.hif, fun _ x rest => exec_hif.trans (branch_cons (x := x) (rest := rest) .right .left rfl),
    fun _ => exec_hif.trans (oneOperand_nil rfl)⟩

/-- Settles O12: a branch with Down on zero and Up otherwise, and Up wraps from the top row. -/
theorem vifSelectsDownOnZero : Obligations.VifSelectsDownOnZero :=
  ⟨Laws.RoundTrip.vif, fun _ x rest => exec_vif.trans (branch_cons (x := x) (rest := rest) .down .up rfl),
    fun _ => exec_vif.trans (oneOperand_nil rfl), advance_up_of_top⟩

end Sys2Proof.Machine
end

section
/-! PROOFS. Literals (42_literals.md): the ten digits. -/

namespace Sys2Proof.Machine

variable {i : Instr} {s : State}

/-! ### What a digit does -/

/-- The digit instructions (42_literals.md R140 to R149). -/
def digits : List Instr := [.push0, .push1, .push2, .push3, .push4, .push5, .push6, .push7, .push8, .push9]

/-- The digit form is the meaning of every digit. -/
theorem exec_digit (hi : i ∈ digits) : exec i s = pushDigit i s := by
  cases i
  case push0 | push1 | push2 | push3 | push4 | push5 | push6 | push7 | push8 | push9 => rfl
  all_goals exact absurd hi (by decide)

/-- A digit pops nothing and pushes one word (30_encoding.md R81). -/
theorem pops_pushes_digit : ∀ i ∈ digits, pops i = 0 ∧ pushes i = 1 := by decide

/-- The depth that the room check of a digit compares with the bound. -/
theorem room_depth_digit (hi : i ∈ digits) : s.depth - pops i + pushes i = s.depth + 1 := by
  obtain ⟨hpops, hpushes⟩ := pops_pushes_digit i hi
  rw [hpops, hpushes, Nat.sub_zero]

theorem exec_digit_of_room (hi : i ∈ digits) (h : s.depth < s.par.stackDepth) :
    exec i s = .next (s.push (digitValue (encode i))) :=
  (exec_digit hi).trans (roomFor_ok (room_depth_digit hi ▸ h))

theorem exec_digit_of_full (hi : i ∈ digits) (h : s.par.stackDepth ≤ s.depth) :
    exec i s = .next (s.faulted .stackOverflow (encode i) 0) :=
  (exec_digit hi).trans (roomFor_full (room_depth_digit hi ▸ Nat.lt_succ_of_le h))

/-! ### The obligation -/

/-- Settles O18: each row names a digit, its byte and the value of that byte, and the room check of a digit has two
outcomes. -/
theorem digitsPushTheirValue : Obligations.DigitsPushTheirValue := by
  intro row hrow
  obtain ⟨hdecode, hbyte, hvalue, hdigit⟩ : decode row.1 = some row.2.1 ∧ encode row.2.1 = row.1 ∧
      digitValue row.1 = row.2.2 ∧ row.2.1 ∈ digits := by
    revert row
    decide
  refine ⟨hdecode, fun s hroom => ?room, fun s hfull => ?full⟩
  case room =>
    rw [exec_digit_of_room hdigit hroom, hbyte, hvalue]
    rfl
  case full =>
    rw [exec_digit_of_full hdigit hfull, hbyte]
    rfl

end Sys2Proof.Machine
end

section
/-! PROOFS. Arithmetic, comparison and logical not (44_arithmetic.md). The meanings compute on integers and wrap; the
library's operations on words say the same, so each is brought to the word operation once and its laws are the library's. -/

namespace Sys2Proof.Machine

variable {i : Instr} {s : State} {x y : Word} {rest : List Word}

/-! ### The wrapped integer result is the operation on words (00_scope.md R10) -/

/-- A word is the wrap of an integer when it stands for that integer reduced to the i32 range. -/
theorem wrap32_eq_of_toInt {v : Word} {n : Int} (h : v.toInt = n.bmod (2 ^ 32)) : wrap32 n = v :=
  BitVec.eq_of_toInt_eq ((BitVec.toInt_ofInt n).trans h.symm)

theorem wrap32_add (x y : Word) : wrap32 (x.toInt + y.toInt) = x + y := wrap32_eq_of_toInt (BitVec.toInt_add x y)

theorem wrap32_sub (x y : Word) : wrap32 (x.toInt - y.toInt) = x - y := wrap32_eq_of_toInt BitVec.toInt_sub

theorem wrap32_mul (x y : Word) : wrap32 (x.toInt * y.toInt) = x * y := wrap32_eq_of_toInt (BitVec.toInt_mul x y)

/-- The wrap gives -2^31 for -2^31 / -1, as the signed division of words does. -/
theorem wrap32_truncDiv (x y : Word) : wrap32 (truncDiv x.toInt y.toInt) = x.sdiv y :=
  wrap32_eq_of_toInt (BitVec.toInt_sdiv x y)

theorem truncRem_eq_tmod (a b : Int) : truncRem a b = a.tmod b := (Int.tmod_def a b).symm

/-- The remainder is in the i32 range before the wrap. -/
theorem wrap32_truncRem (x y : Word) : wrap32 (truncRem x.toInt y.toInt) = x.srem y := by
  rw [truncRem_eq_tmod, ← BitVec.toInt_srem, wrap32, BitVec.ofInt_toInt]

/-- `>` with x below y is the library's signed `<` with the operands exchanged. -/
theorem ofBool_signedGreater (x y : Word) : ofBool (signedGreater x y) = if y.slt x then 1 else 0 := rfl

theorem ofBool_isZero (x : Word) : ofBool (isZero x) = if x = 0 then 1 else 0 := by
  simp only [ofBool, isZero, decide_eq_true_eq]

/-! ### What each instruction does -/

theorem exec_add : exec .add s = binary .add (· + ·) s := congrArg (binary .add · s) (funext₂ wrap32_add)

theorem exec_sub : exec .sub s = binary .sub (· - ·) s := congrArg (binary .sub · s) (funext₂ wrap32_sub)

theorem exec_mul : exec .mul s = binary .mul (· * ·) s := congrArg (binary .mul · s) (funext₂ wrap32_mul)

theorem exec_div : exec .div s = division .div BitVec.sdiv s := congrArg (division .div · s) (funext₂ wrap32_truncDiv)

theorem exec_mod : exec .mod s = division .mod BitVec.srem s := congrArg (division .mod · s) (funext₂ wrap32_truncRem)

theorem exec_gt : exec .gt s = binary .gt (fun x y => if y.slt x then 1 else 0) s :=
  congrArg (binary .gt · s) (funext₂ ofBool_signedGreater)

theorem exec_not : exec .not s =
    oneOperand .not s fun x rest => .next (s.withStack ((if x = 0 then 1 else 0) :: rest)) := by
  simp only [← ofBool_isZero]
  rfl

/-! ### The outcomes of the two operand forms -/

section
variable {f : Word → Word → Word}

theorem binary_cons (hs : s.stack = y :: x :: rest) : binary i f s = .next (s.withStack (f x y :: rest)) :=
  twoOperands_cons hs

theorem binary_short (h : s.depth < 2) :
    binary i f s = .next (s.faulted .stackUnderflow (encode i) (BitVec.ofNat 2 (pops i))) :=
  twoOperands_short h

theorem division_cons (hs : s.stack = y :: x :: rest) (hy : y ≠ 0) :
    division i f s = .next (s.withStack (f x y :: rest)) :=
  (twoOperands_cons hs).trans (if_neg hy)

theorem division_by_zero (hs : s.stack = 0 :: x :: rest) :
    division i f s = .next (s.faulted .divisionByZero (encode i) 0) :=
  (twoOperands_cons hs).trans (if_pos rfl)

theorem division_short (h : s.depth < 2) :
    division i f s = .next (s.faulted .stackUnderflow (encode i) (BitVec.ofNat 2 (pops i))) :=
  twoOperands_short h

end

/-! ### Quotient and remainder as integers (44_arithmetic.md R188) -/

theorem natAbs_toInt_srem_lt (hy : y ≠ 0) : (x.srem y).toInt.natAbs < y.toInt.natAbs := by
  have hpos : 0 < y.toInt.natAbs := Int.natAbs_pos.mpr fun h => hy (BitVec.eq_of_toInt_eq h)
  rw [BitVec.toInt_srem, Int.natAbs_tmod]
  exact Nat.mod_lt _ hpos

/-- A remainder other than 0 has the sign of the dividend. -/
theorem tmod_neg_iff {a b : Int} (h : a.tmod b ≠ 0) : a.tmod b < 0 ↔ a < 0 := by
  have hsign : (a.tmod b).sign = a.sign := by
    rw [Int.sign_tmod, if_neg fun hdvd => h (Int.tmod_eq_zero_of_dvd hdvd)]
  rw [← Int.sign_eq_neg_one_iff_neg, hsign, Int.sign_eq_neg_one_iff_neg]

/-- Every quotient but -2^31 / -1 is in the i32 range, so the wrap leaves it as it is. -/
theorem toInt_sdiv_of_no_overflow (h : ¬(x.toInt = -2 ^ 31 ∧ y.toInt = -1)) :
    (x.sdiv y).toInt = x.toInt.tdiv y.toInt := by
  refine BitVec.toInt_sdiv_of_ne_or_ne x y (Decidable.not_and_iff_not_or_not.mp ?_)
  rintro ⟨rfl, rfl⟩
  exact h (by decide)

theorem toInt_sdiv_srem_of_overflow (hx : x.toInt = -2 ^ 31) (hy : y.toInt = -1) :
    (x.sdiv y).toInt = -2 ^ 31 ∧ (x.srem y).toInt = 0 := by
  rw [BitVec.toInt_sdiv, BitVec.toInt_srem, hx, hy]
  decide

/-! ### The obligations -/

/-- Settles O32: the word operations obey the integer laws, and a divisor 0 is caught before anything is popped. -/
theorem arithmeticLawsOnIntegers : Obligations.ArithmeticLawsOnIntegers := by
  refine ⟨fun s x y rest => ?wrapped, fun s x y rest hy => ?divided, ?byZero⟩
  case wrapped =>
    exact ⟨x + y, x - y, x * y, exec_add.trans (binary_cons rfl), exec_sub.trans (binary_cons rfl),
      exec_mul.trans (binary_cons rfl), BitVec.toInt_add x y, BitVec.toInt_sub, BitVec.toInt_mul x y⟩
  case divided =>
    refine ⟨x.sdiv y, x.srem y, exec_div.trans (division_cons rfl hy), exec_mod.trans (division_cons rfl hy),
      natAbs_toInt_srem_lt hy, ?sign, fun hfits => ?law, fun ⟨hx, hy⟩ => toInt_sdiv_srem_of_overflow hx hy⟩
    case sign =>
      rw [BitVec.toInt_srem]
      exact tmod_neg_iff
    case law =>
      rw [toInt_sdiv_of_no_overflow hfits, BitVec.toInt_srem, Int.mul_tdiv_add_tmod]
  case byZero =>
    exact List.forall_mem_cons.mpr ⟨fun s x rest => exec_div.trans (division_by_zero rfl),
      List.forall_mem_singleton.mpr fun s x rest => exec_mod.trans (division_by_zero rfl)⟩

/-- Settles O27: the binary form with the sum of words. -/
theorem addPushesTheWrappedSum : Obligations.AddPushesTheWrappedSum :=
  ⟨Laws.RoundTrip.add, fun _ _ _ _ => exec_add.trans (binary_cons rfl), fun _ h => exec_add.trans (binary_short h)⟩

/-- Settles O28: the binary form with the difference of words, the top subtracted. -/
theorem subPushesTheWrappedDifference : Obligations.SubPushesTheWrappedDifference :=
  ⟨Laws.RoundTrip.sub, fun _ _ _ _ => exec_sub.trans (binary_cons rfl), fun _ h => exec_sub.trans (binary_short h)⟩

/-- Settles O29: the binary form with the product of words. -/
theorem mulPushesTheWrappedProduct : Obligations.MulPushesTheWrappedProduct :=
  ⟨Laws.RoundTrip.mul, fun _ _ _ _ => exec_mul.trans (binary_cons rfl), fun _ h => exec_mul.trans (binary_short h)⟩

/-- Settles O30: the three outcomes of the division form, with the signed division of words. -/
theorem divPushesTheTruncatedQuotient : Obligations.DivPushesTheTruncatedQuotient :=
  ⟨Laws.RoundTrip.div, fun _ _ _ _ hy => exec_div.trans (division_cons rfl hy),
    fun _ _ _ => exec_div.trans (division_by_zero rfl), fun _ h => exec_div.trans (division_short h)⟩

/-- Settles O31: the three outcomes of the division form, with the signed remainder of words. -/
theorem modPushesTheRemainder : Obligations.ModPushesTheRemainder :=
  ⟨Laws.RoundTrip.mod, fun _ _ _ _ hy => exec_mod.trans (division_cons rfl hy),
    fun _ _ _ => exec_mod.trans (division_by_zero rfl), fun _ h => exec_mod.trans (division_short h)⟩

/-- Settles O33: the binary form with the signed comparison of words. -/
theorem gtPushesTheSignedComparison : Obligations.GtPushesTheSignedComparison :=
  ⟨Laws.RoundTrip.gt, fun _ _ _ _ => exec_gt.trans (binary_cons rfl), fun _ h => exec_gt.trans (binary_short h)⟩

/-- Settles O34: one operand, replaced by whether it is 0; on the empty stack the need check fails. -/
theorem notPushesWhetherZero : Obligations.NotPushesWhetherZero :=
  ⟨Laws.RoundTrip.not, fun _ _ _ => exec_not.trans (oneOperand_cons rfl), fun _ => exec_not.trans (oneOperand_nil rfl)⟩

end Sys2Proof.Machine
end

section
/-! PROOFS. Stack manipulation (45_stack.md): `\` and `$`. -/

namespace Sys2Proof.Machine

variable {s : State}

/-! ### What each instruction does -/

theorem exec_swap : exec .swap s = twoOperands .swap s fun y x rest => .next (s.withStack (x :: y :: rest)) := rfl

theorem exec_drop : exec .drop s = oneOperand .drop s fun _ rest => .next (s.withStack rest) := rfl

/-! ### The obligations -/

/-- Settles O36: two operands, put back in the other order; a stack short of two fails the need check as it is. -/
theorem swapExchangesTheTopTwo : Obligations.SwapExchangesTheTopTwo := by
  refine ⟨Laws.RoundTrip.swap, fun s x y rest => ?exchanged, fun s hshort => ?short⟩
  case exchanged => exact exec_swap.trans (twoOperands_cons rfl)
  case short => exact exec_swap.trans ((twoOperands_short hshort).trans (underflow_eq .swap s))

/-- Settles O37: one operand, and what lies below it is kept; on the empty stack the need check fails. -/
theorem dropDiscardsTheTop : Obligations.DropDiscardsTheTop := by
  refine ⟨Laws.RoundTrip.drop, fun s v rest => ?dropped, fun s => ?empty⟩
  case dropped => exact exec_drop.trans (oneOperand_cons rfl)
  case empty => exact exec_drop.trans (oneOperand_nil rfl)

end Sys2Proof.Machine
end

section
/-! PROOFS. Grid get (46_grid_access.md): `g`. -/

namespace Sys2Proof.Machine

variable {s : State} {r c : Word} {rest : List Word}

/-! ### The outcomes of `g` (46_grid_access.md R210) -/

theorem exec_get : exec .get s = execGet s := rfl

theorem exec_get_of_onGrid (hs : s.stack = r :: c :: rest) (h : onGrid s.par r c) :
    exec .get s = .next (s.withStack (zext (s.readCell ⟨r.toInt.toNat, c.toInt.toNat⟩) :: rest)) := by
  rw [exec_get, execGet, twoOperands_cons hs, gridCoord_in h]

theorem exec_get_of_not_onGrid (hs : s.stack = r :: c :: rest) (h : ¬onGrid s.par r c) :
    exec .get s = .next (s.faulted .outOfBounds (encode .get) 0) := by
  rw [exec_get, execGet, twoOperands_cons hs, gridCoord_out h, raise_eq]

theorem exec_get_of_short (h : s.depth < 2) :
    exec .get s = .next (s.faulted .stackUnderflow (encode .get) (BitVec.ofNat 2 (pops .get))) := by
  rw [exec_get, execGet, twoOperands_short h, underflow_eq]

/-! ### The obligation -/

/-- Settles O38: a pair in the grid reads its cell, a pair outside fails the bounds check, and a stack short of two fails
the need check, both as it is. -/
theorem getPushesTheCell : Obligations.GetPushesTheCell := by
  refine ⟨Laws.RoundTrip.get, fun s r c rest hin => ?read, fun s r c rest hout => ?outside, fun s hshort => ?short⟩
  case read => exact exec_get_of_onGrid rfl hin
  case outside => exact exec_get_of_not_onGrid rfl hout
  case short => exact exec_get_of_short hshort

end Sys2Proof.Machine
end

section
/-! PROOFS. The need check (60_exceptions.md R231): every instruction that pops makes it first. -/

namespace Sys2Proof.Machine

variable {i : Instr} {s : State}

/-! ### An instruction short of operands -/

/-- The need check of an instruction is the one of its operand form, and comes before everything else the form does; an
instruction that pops nothing is never short. -/
theorem exec_of_short (h : s.depth < pops i) : exec i s = underflow i s := by
  cases i
  case nop | str | bridge | left | right | up | down | rand | halt | innum | inchr | push0 | push1 | push2 | push3 | push4
      | push5 | push6 | push7 | push8 | push9 =>
    exact absurd h (Nat.not_lt_zero _)
  case not | drop | dup | hif | vif | outnum | outchr => exact oneOperand_short h
  case add | sub | mul | div | mod | gt | swap | get => exact twoOperands_short h
  case put => exact threeOperands_short h

/-! ### The obligation -/

/-- Settles O41: the need counts are the pops column, and an instruction short of operands answers the underflow, which
writes the run state and the fault record alone. -/
theorem underflowRecordsTheNeedCount : Obligations.UnderflowRecordsTheNeedCount := by
  refine ⟨?one, ?two, rfl, fun i s hshort => ?short⟩
  case one => decide
  case two => decide
  case short => exact (exec_of_short hshort).trans (underflow_eq i s)

end Sys2Proof.Machine
end

section
/-! PROOFS. Encoding (30_encoding.md): the rows of the opcode map, and the decoder beside the encoder. -/

namespace Sys2Proof.Machine

variable {b : Byte} {i : Instr}

/-! ### The decoder and the encoder -/

theorem encode_of_row : ∀ row ∈ opcodeTable, encode row.instr = row.byte := by decide

theorem decode_encode (i : Instr) : decode (encode i) = some i := by cases i <;> rfl

/-- A byte that decodes is the byte of its instruction: the table is searched by byte, and each row holds its
instruction's. -/
theorem encode_of_decode (h : decode b = some i) : encode i = b := by
  obtain ⟨row, hrow, rfl⟩ := Option.map_eq_some_iff.1 h
  rw [encode_of_row row (List.mem_of_find?_eq_some hrow)]
  simpa using List.find?_some hrow

/-- A byte is illegal exactly if no row of the table holds it. -/
theorem decode_eq_none_iff : decode b = none ↔ ∀ row ∈ opcodeTable, row.byte ≠ b := by
  simp [decode, List.find?_eq_none]

/-- A need count fits the two bits of `fneed` (10_state.md R31). -/
theorem toNat_ofNat_pops (i : Instr) : (BitVec.ofNat 2 (pops i)).toNat = pops i := by cases i <;> rfl

/-! ### The obligations -/

/-- Settles O1: the rows are checked one by one, and each instruction is found in them. -/
theorem opcodeMapRows : Obligations.OpcodeMapRows := by
  refine ⟨rfl, ?rows, fun i => ?covered⟩
  case rows => decide
  case covered => cases i <;> decide

/-- Settles O2: the two directions of the round trip. -/
theorem decodeAndEncodeAgree : Obligations.DecodeAndEncodeAgree :=
  ⟨fun i _ => decode_encode i, fun _ _ => encode_of_decode⟩

end Sys2Proof.Machine
end

section
/-! PROOFS. The invariant (10_state.md, 40_dispatch.md, 60_exceptions.md): every step answers and keeps it. A running state
is taken apart from what waits on the port, since a step first advances and only then issues a request. -/

namespace Sys2Proof.Machine

variable {s t : State} {q : Request} {i : Instr} {op : Byte}

/-! ### A running state, apart from what waits on the port -/

/-- What the invariant says of a state in RUN but for its pending request. -/
structure State.Runs (s : State) : Prop where
  params : s.par.wf = true
  grid : Memory.wf s.par s.grid
  depth : s.depth ≤ s.par.stackDepth
  pc : s.pc.valid s.par
  running : s.run = .run
  notBusy : s.busy = 0
  noFault : s.fault = FaultRecord.clear

theorem State.Inv.notBusy_of_run (h : s.Inv) (hr : s.run = .run) : s.busy = 0 := by
  by_contra hb
  rw [h.busy hb] at hr
  cases hr

theorem State.Inv.runs (h : s.Inv) (hr : s.run = .run) : s.Runs where
  params := h.params
  grid := h.grid
  depth := h.depth
  pc := h.pc
  running := hr
  notBusy := h.notBusy_of_run hr
  noFault := h.noFault (by rw [hr]; nofun)

/-- Only a running core waits on the port (10_state.md R29, R32). -/
theorem State.Inv.noRequest (h : s.Inv) (hr : s.run ≠ .run) : s.pending = none :=
  Option.eq_none_iff_forall_ne_some.2 fun q hq => hr (h.waiting q hq).1

namespace State.Runs

/-! What keeps it: every write but those of `run`, `busy`, the record and the parameters. -/

theorem withPc {c : Coord} (h : s.Runs) (hc : c.valid s.par) : (s.withPc c).Runs := { h with pc := hc }
theorem withDir (h : s.Runs) (d : Dir) : (s.withDir d).Runs := { h with }
theorem withSm (h : s.Runs) (b : Bool) : (s.withSm b).Runs := { h with }
theorem withEnv (h : s.Runs) (e : Env) : (s.withEnv e).Runs := { h with }
theorem withPending (h : s.Runs) (q : Option Request) : (s.withPending q).Runs := { h with }
theorem tookAnswer (h : s.Runs) (a : Answer) : (s.tookAnswer a).Runs := { h with }
theorem sentWord (h : s.Runs) (w : OutWord) : (s.sentWord w).Runs := { h with }

theorem withStack {st : List Word} (h : s.Runs) (hd : st.length ≤ s.par.stackDepth) : (s.withStack st).Runs :=
  { h with depth := hd }

theorem withPush (h : s.Runs) (v : Word) (hroom : s.depth < s.par.stackDepth) : (s.withStack (v :: s.stack)).Runs :=
  h.withStack hroom

theorem writeCell {a : Coord} (h : s.Runs) (v : Byte) (ha : a.valid s.par) : (s.writeCell a v).Runs :=
  { h with grid := State.writeCell_wf v ha h.grid }

/-- A stack that lies below the present one keeps the bound. -/
theorem length_of_suffix {st : List Word} (h : s.Runs) (hd : st <:+ s.stack) : st.length ≤ s.par.stackDepth :=
  hd.length_le.trans h.depth

/-! From it to the invariant, in each run state that a step can end in. -/

theorem inv (h : s.Runs) (hw : ∀ q, s.pending = some q → s.sm = false ∧ s.readCell s.pc = q.op ∧ q.fits s) : s.Inv where
  params := h.params
  grid := h.grid
  depth := h.depth
  pc := h.pc
  idle hr := by cases h.running.symm.trans hr
  busy hb := absurd h.notBusy hb
  waiting q hq := ⟨h.running, hw q hq⟩
  halted hr := by cases h.running.symm.trans hr
  noFault _ := h.noFault
  faulted hr := by cases h.running.symm.trans hr

theorem inv_of_noRequest (h : s.Runs) (hp : s.pending = none) : s.Inv :=
  h.inv fun q hq => by cases hp.symm.trans hq

theorem halted_inv (h : s.Runs) (hp : s.pending = none) (hop : encode .halt = s.readCell s.pc) (hs : s.sm = false) :
    (s.withRun .halted).Inv where
  params := h.params
  grid := h.grid
  depth := h.depth
  pc := h.pc
  idle := nofun
  busy hb := absurd h.notBusy hb
  waiting q hq := by cases hp.symm.trans hq
  halted _ := ⟨hop.symm, hs⟩
  noFault _ := h.noFault
  faulted := nofun

theorem faulted_inv {code : FaultCode} {need : BitVec 2} (h : s.Runs) (hp : s.pending = none) (hc : code ≠ .none)
    (hop : op = s.readCell s.pc) (hu : code = .stackUnderflow → s.depth < need.toNat)
    (hn : code ≠ .stackUnderflow → need = 0) (hs : s.sm = true → code = .stackOverflow) :
    (s.faulted code op need).Inv where
  params := h.params
  grid := h.grid
  depth := h.depth
  pc := h.pc
  idle := nofun
  busy hb := absurd h.notBusy hb
  waiting q hq := by cases hp.symm.trans hq
  halted := nofun
  noFault hr := absurd rfl hr
  faulted _ := ⟨hc, hop, rfl, hu, hn, hs⟩

end State.Runs

/-! ### The transfer of a waiting request -/

/-- A request that fits the stack keeps the invariant at an edge, met or not (43_io.md R160 to R166). -/
theorem transfer_inv (h : s.Runs) (hs : s.sm = false) (hop : s.readCell s.pc = q.op) (hq : q.fits s)
    (ht : transfer q s = .next t) : t.Inv := by
  rcases transfer_cases ht with rfl | ⟨k, rfl, -, rfl⟩ | ⟨rfl, -, -, rfl⟩ | ⟨k, v, rfl, -, rfl⟩
  · exact (h.withPending _).inv fun q' hq' => by cases hq'; exact ⟨hs, hop, hq⟩
  · exact ((h.tookAnswer _).withPush _ hq).inv_of_noRequest rfl
  · exact (h.tookAnswer _).faulted_inv rfl nofun hop.symm nofun (fun _ => rfl) (fun hsm => by cases hs.symm.trans hsm)
  · exact ((h.withStack (h.length_of_suffix (List.tail_suffix _))).sentWord _).inv_of_noRequest rfl

/-! ### An executed instruction -/

/-- An instruction fetched at the pc of a running core ends in a state that meets the invariant. -/
theorem exec_inv (h : s.Runs) (hp : s.pending = none) (hs : s.sm = false) (hb : decode (s.readCell s.pc) = some i)
    (ht : exec i s = .next t) : t.Inv := by
  have hop : encode i = s.readCell s.pc := encode_of_decode hb
  have hstr : ∀ {code : FaultCode}, s.sm = true → code = .stackOverflow := fun hsm => by cases hs.symm.trans hsm
  cases exec_ends ht with
  | fault code need hc hu hn =>
    refine h.faulted_inv hp hc hop (fun hcode => ?_) hn hstr
    obtain ⟨hshort, rfl⟩ := hu hcode
    rwa [toNat_ofNat_pops]
  | parseError hi => exact (h.tookAnswer _).faulted_inv rfl nofun (hi ▸ hop) nofun (fun _ => rfl) hstr
  | waitsForAnswer k hi hroom =>
    refine (h.withPending _).inv fun q hq => ?_
    cases hq
    rcases hi with ⟨rfl, rfl⟩ | ⟨rfl, rfl⟩ <;> exact ⟨hs, hop.symm, hroom⟩
  | waitsToSend k v x rest hst hi =>
    refine (h.withPending _).inv fun q hq => ?_
    cases hq
    rcases hi with ⟨rfl, rfl, rfl⟩ | ⟨rfl, rfl, rfl⟩ <;> exact ⟨hs, hop.symm, by simp [Request.fits, hst]⟩
  | reads hi hroom => exact ((h.tookAnswer _).withPush _ hroom).inv_of_noRequest rfl
  | writes w x rest hst hi =>
    exact ((h.withStack (h.length_of_suffix (List.tail_suffix _))).sentWord _).inv_of_noRequest rfl
  | stack st hi hneed hlen hroom =>
    exact (h.withStack (hroom.elim (·.trans h.depth) id)).inv_of_noRequest hp
  | branch x rest d hst hi =>
    exact ((h.withStack (h.length_of_suffix (hst ▸ List.suffix_cons x rest))).withDir d).inv_of_noRequest hp
  | turn d hi => exact (h.withDir d).inv_of_noRequest hp
  | random hi => exact ((h.withDir _).withEnv _).inv_of_noRequest hp
  | halt hi => exact h.halted_inv hp (hi ▸ hop) hs
  | bridge hi => exact (h.withPc (advance_valid _ h.pc)).inv_of_noRequest hp
  | nop hi => exact h.inv_of_noRequest hp
  | str hi => exact (h.withSm true).inv_of_noRequest hp
  | put a v r c rest hst ha hi =>
    have hrest : rest <:+ s.stack := hst ▸ List.suffix_append [r, c, v] rest
    exact ((h.withStack (h.length_of_suffix hrest)).writeCell _ (gridCoord_valid ha)).inv_of_noRequest hp

/-! ### A step of the core -/

/-- A byte fetched at the pc is dispatched to a state that meets the invariant, in string mode and outside it. -/
theorem dispatch_inv (h : s.Runs) (hp : s.pending = none) (ht : dispatch (s.readCell s.pc) s = .next t) : t.Inv := by
  rcases dispatch_cases ht with
    ⟨hs, -, rfl⟩ | ⟨hs, -, hfull, rfl⟩ | ⟨hs, -, hroom, rfl⟩ | ⟨hs, hb, rfl⟩ | ⟨i, hs, hb, ht⟩
  · exact (h.withSm false).inv_of_noRequest hp
  · exact h.faulted_inv hp nofun rfl nofun (fun _ => rfl) (fun _ => rfl)
  · exact (h.withPush _ hroom).inv_of_noRequest hp
  · exact h.faulted_inv hp nofun rfl nofun (fun _ => rfl) (fun hsm => by cases hs.symm.trans hsm)
  · exact exec_inv h hp hs hb ht

theorem coreStep_inv (h : s.Runs) (hp : s.pending = none) (ht : coreStep s = .next t) : t.Inv := by
  obtain ⟨hv, ht⟩ := coreStep_cases ht
  exact dispatch_inv (h.withPc hv) hp ht

/-! ### An edge in IDLE, and the reset -/

theorem idleEdge_inv (h : s.Inv) (hr : s.run = .idle) : s.idleEdge.Inv := by
  have hp : s.pending = none := h.noRequest (by rw [hr]; nofun)
  by_cases hb : s.busy = 0
  case neg => rw [idleEdge_busy hb]; exact { h with busy := fun _ => hr }
  case pos =>
    rw [idleEdge_ready hb]
    by_cases hstart : s.pins.start = true
    · rw [if_pos hstart]
      exact State.Runs.inv_of_noRequest { h with
        grid := loadEdge_wf h.grid, running := rfl, notBusy := hb, noFault := h.noFault (by rw [hr]; nofun) } hp
    · rw [if_neg hstart]
      exact { h with
        grid := loadEdge_wf h.grid
        waiting := fun q hq => by cases hp.symm.trans hq
        halted := fun hh => by cases hr.symm.trans hh
        faulted := fun hf => by cases hr.symm.trans hf }

/-- The first step's advance needs a pc inside the grid already at reset (70_reset_and_hazards.md R261, R262). -/
theorem resetWith_inv {p : Params} (hp : p.wf = true) (e : Env) : (State.resetWith p e).Inv := by
  obtain ⟨⟨hw, -⟩, ⟨hh, -⟩, -⟩ := p.wf_iff.1 hp
  exact {
    params := hp
    grid := Memory.wf_nil p
    depth := Nat.zero_le _
    pc := ⟨hh, Nat.sub_one_lt_of_lt hw⟩
    idle := fun _ => ⟨rfl, rfl, rfl, rfl, rfl, rfl⟩
    busy := fun _ => rfl
    waiting := nofun
    halted := nofun
    noFault := fun _ => rfl
    faulted := nofun }

/-! ### Every edge answers -/

theorem dispatch_answers (op : Byte) (s : State) : ∃ t, dispatch op s = .next t := by
  refine ite_answers (ite_answers ⟨_, rfl⟩ (roomFor_answers ⟨_, rfl⟩)) ?_
  unfold execute
  split
  · exact exec_answers _ s
  · exact ⟨_, rfl⟩

theorem coreStep_of_valid (hv : (advance s.par s.dir s.pc).valid s.par) :
    coreStep s = dispatch (s.readCell (advance s.par s.dir s.pc)) (s.withPc (advance s.par s.dir s.pc)) := by
  rw [coreStep, fetchAndDispatch, State.advanced_eq, State.fetch_of_valid hv]
  rfl

/-- An edge stops the model only at a fetch outside the grid, which the invariant excludes (log 12). -/
theorem edge_answers (h : s.Inv) : ∃ t, edge s = .next t := by
  refine ite_answers ⟨_, rfl⟩ ?_
  split
  · exact ⟨_, rfl⟩
  · split
    · exact transfer_answers _ s
    · rw [coreStep_of_valid (advance_valid _ h.pc)]
      exact dispatch_answers _ _
  · exact ⟨_, rfl⟩
  · exact ⟨_, rfl⟩

theorem edge_inv (h : s.Inv) (ht : edge s = .next t) : t.Inv := by
  rcases edge_cases ht with ⟨-, rfl⟩ | ⟨-, ⟨hr, rfl⟩ | ⟨q, hr, hq, ht⟩ | ⟨hr, hp, ht⟩ | ⟨-, rfl⟩⟩
  · exact resetWith_inv h.params s.env
  · exact idleEdge_inv h hr
  · obtain ⟨-, hs, hop, hfits⟩ := h.waiting q hq
    exact transfer_inv (h.runs hr) hs hop hfits ht
  · exact coreStep_inv (h.runs hr) hp ht
  · exact h

/-- The invariant does not speak of the host. -/
theorem State.Inv.withEnv (h : s.Inv) (e : Env) : (s.withEnv e).Inv := { h with }

theorem step_inv (h : s.Inv) (ht : step s = .next t) : t.Inv := by
  obtain ⟨u, hu, rfl⟩ := step_cases ht
  exact (edge_inv h hu).withEnv _

/-! ### The obligations -/

/-- Settles O52: the edge answers, the state it answers meets the invariant, and the host's wires that then move on are no
part of it. -/
theorem stepKeepsTheInvariant : Obligations.StepKeepsTheInvariant := by
  intro s h
  obtain ⟨t, ht⟩ := edge_answers h
  exact ⟨t.afterEdge, congrArg endEdge ht, (edge_inv h ht).withEnv _⟩

/-- Settles O53: the reset state of any parameters within their bounds, the default ones among them. -/
theorem resetMeetsTheInvariant : Obligations.ResetMeetsTheInvariant :=
  ⟨resetWith_inv (by decide) Env.initial, fun _ e hp => resetWith_inv hp e⟩

end Sys2Proof.Machine
end

section
/-! PROOFS. The advance applied many times (40_dispatch.md R109): one coordinate stays, the index of the other goes round. -/

namespace Sys2Proof.Machine

variable {p : Params} {c : Coord} {k m n : Nat}

/-! ### One index of n going round -/

/-- The index after k of n, as Right steps a column and Down a row. -/
def nextIndex (n k : Nat) : Nat := if k = n - 1 then 0 else k + 1

/-- The index before k of n, as Left steps a column and Up a row. -/
def prevIndex (n k : Nat) : Nat := if k = 0 then n - 1 else k - 1

theorem iterate_nextIndex (h : k < n) (m : Nat) : (nextIndex n)^[m] k = (k + m) % n := by
  induction m with
  | zero => exact (Nat.mod_eq_of_lt h).symm
  | succ m ih =>
    rw [Function.iterate_succ_apply', ih, nextIndex, wrapSucc_eq_mod (Nat.mod_lt _ (by omega)), Nat.mod_add_mod,
      Nat.add_assoc]

theorem iterate_nextIndex_round (h : k < n) : (nextIndex n)^[n] k = k := by
  rw [iterate_nextIndex h, Nat.add_mod_right, Nat.mod_eq_of_lt h]

/-- Backward, the sum is one of integers, because it may be negative. -/
theorem iterate_prevIndex (h : k < n) (m : Nat) : (((prevIndex n)^[m] k : Nat) : Int) = ((k : Int) - m) % n := by
  induction m with
  | zero => rw [Function.iterate_zero_apply, Nat.cast_zero, Int.sub_zero, Int.emod_eq_of_lt (by omega) (by omega)]
  | succ m ih =>
    have hlt : (prevIndex n)^[m] k < n := by
      have := Int.emod_lt_of_pos ((k : Int) - m) (b := n) (by omega)
      omega
    rw [Function.iterate_succ_apply', prevIndex, wrapPred_eq_emod hlt, ih, Int.emod_sub_emod]
    push_cast
    ring_nf

theorem iterate_prevIndex_round (h : k < n) : (prevIndex n)^[n] k = k := by
  have hround := iterate_prevIndex h n
  rw [Int.sub_emod_right, Int.emod_eq_of_lt (by omega) (by omega)] at hround
  exact_mod_cast hround

/-! ### Many advances in one direction -/

theorem iterate_advance_right (p : Params) : ∀ (m : Nat) (c : Coord),
    (advance p .right)^[m] c = ⟨c.row, (nextIndex p.width)^[m] c.col⟩
  | 0, _ => rfl
  | m + 1, c => iterate_advance_right p m (advance p .right c)

theorem iterate_advance_left (p : Params) : ∀ (m : Nat) (c : Coord),
    (advance p .left)^[m] c = ⟨c.row, (prevIndex p.width)^[m] c.col⟩
  | 0, _ => rfl
  | m + 1, c => iterate_advance_left p m (advance p .left c)

theorem iterate_advance_down (p : Params) : ∀ (m : Nat) (c : Coord),
    (advance p .down)^[m] c = ⟨(nextIndex p.height)^[m] c.row, c.col⟩
  | 0, _ => rfl
  | m + 1, c => iterate_advance_down p m (advance p .down c)

theorem iterate_advance_up (p : Params) : ∀ (m : Nat) (c : Coord),
    (advance p .up)^[m] c = ⟨(prevIndex p.height)^[m] c.row, c.col⟩
  | 0, _ => rfl
  | m + 1, c => iterate_advance_up p m (advance p .up c)

/-- How many advances in a direction go once round the grid (R109): its width, or its height. -/
def Dir.round (p : Params) : Dir → Nat
  | .right | .left => p.width
  | .down | .up => p.height

theorem iterate_advance_round (d : Dir) (h : c.valid p) : (advance p d)^[d.round p] c = c := by
  cases d
  case right => rw [iterate_advance_right, Dir.round, iterate_nextIndex_round h.2]
  case left => rw [iterate_advance_left, Dir.round, iterate_prevIndex_round h.2]
  case down => rw [iterate_advance_down, Dir.round, iterate_nextIndex_round h.1]
  case up => rw [iterate_advance_up, Dir.round, iterate_prevIndex_round h.1]

/-- Where once round is one advance, the advance stays where it is. -/
theorem advance_of_round_one {d : Dir} (h : c.valid p) (hd : d.round p = 1) : advance p d c = c := by
  simpa [hd] using iterate_advance_round d h

/-! ### The obligations -/

/-- Settles O5: each direction goes once round, and a forward index is a sum modulo the size. -/
theorem advanceRoundTripReturns : Obligations.AdvanceRoundTripReturns := by
  intro p c h
  refine ⟨iterate_advance_round .right h, iterate_advance_round .left h, iterate_advance_round .down h,
    iterate_advance_round .up h, fun n => ⟨?right, ?down⟩⟩
  case right => rw [iterate_advance_right, iterate_nextIndex h.2]
  case down => rw [iterate_advance_down, iterate_nextIndex h.1]

/-- Settles O15: `#` writes the pc alone, and on a grid one cell wide or high an advance along that side is once round. -/
theorem bridgeSkipsOneCell : Obligations.BridgeSkipsOneCell :=
  ⟨Laws.RoundTrip.bridge, fun _ => exec_bridge, fun _ _ h hw => ⟨advance_of_round_one h hw, advance_of_round_one h hw⟩,
    fun _ _ h hh => ⟨advance_of_round_one h hh, advance_of_round_one h hh⟩⟩

end Sys2Proof.Machine
end

section
/-! PROOFS. The registers as bits (10_state.md R22, R24, R31): each value of a state that meets the invariant fits. -/

namespace Sys2Proof.Machine

variable {s : State} {k n : Nat}

theorem lt_two_pow_ceilLog2 (h : k < n) : k < 2 ^ ceilLog2 n := by
  unfold ceilLog2
  split
  case isTrue => rw [Nat.pow_zero]; omega
  case isFalse =>
    calc k ≤ n - 1 := Nat.le_sub_one_of_lt h
      _ < 2 ^ ((n - 1).log2 + 1) := Nat.lt_log2_self

theorem toNat_ofNat_ceilLog2 (h : k < n) : (BitVec.ofNat (ceilLog2 n) k).toNat = k :=
  (BitVec.toNat_ofNat _ _).trans (Nat.mod_eq_of_lt (lt_two_pow_ceilLog2 h))

/-- ROW_BITS and COL_BITS are at least 1 (00_scope.md R7). -/
theorem toNat_ofNat_max_ceilLog2 (h : k < n) : (BitVec.ofNat (max 1 (ceilLog2 n)) k).toNat = k :=
  (BitVec.toNat_ofNat _ _).trans (Nat.mod_eq_of_lt
    ((lt_two_pow_ceilLog2 h).trans_le (Nat.pow_le_pow_right (by decide) (Nat.le_max_right _ _))))

/-- The recorded depth is 0 or the depth (10_state.md R31). -/
theorem State.Inv.faultDepth_le (h : s.Inv) : s.fault.depth ≤ s.par.stackDepth := by
  by_cases hr : s.run = .faulted
  · obtain ⟨-, -, hdepth, -⟩ := h.faulted hr
    exact hdepth ▸ h.depth
  · rw [h.noFault hr]
    exact Nat.zero_le _

theorem stk_top {v : Word} {rest : List Word} (hs : s.stack = v :: rest) : s.stk (s.depth - 1) = some v := by
  simp [State.stk, State.depth, hs]

theorem stk_of_depth_le (h : s.depth ≤ k) : s.stk k = none :=
  List.getElem?_eq_none (by simpa [State.depth] using h)

/-- Settles O58: a valid coordinate and a bounded depth are below the bound of their registers. -/
theorem registersFitTheirWidths : Obligations.RegistersFitTheirWidths := fun _ h =>
  ⟨toNat_ofNat_max_ceilLog2 h.pc.1, toNat_ofNat_max_ceilLog2 h.pc.2, toNat_ofNat_ceilLog2 (Nat.lt_succ_of_le h.depth),
    toNat_ofNat_ceilLog2 (Nat.lt_succ_of_le h.faultDepth_le), fun _ _ => stk_top, fun _ => stk_of_depth_le⟩

end Sys2Proof.Machine
end

section
/-! PROOFS. The edge and the step (40_dispatch.md R101 to R107): one equation for each run state and each kind of byte. -/

namespace Sys2Proof.Machine

variable {s t : State} {q : Request} {i : Instr} {b : Byte}

/-! ### What an edge does, by the run state (10_state.md R29) -/

theorem edge_of_rst (h : s.pins.rst = true) : edge s = .next (State.resetWith s.par s.env) := if_pos h

theorem edge_of_idle (h : s.pins.rst = false) (hr : s.run = .idle) : edge s = .next s.idleEdge := by
  simp only [edge, h, hr, Bool.false_eq_true, if_false]

theorem edge_of_pending (h : s.pins.rst = false) (hr : s.run = .run) (hq : s.pending = some q) :
    edge s = transfer q s := by
  simp only [edge, h, hr, hq, Bool.false_eq_true, if_false]

theorem edge_of_stepping (h : s.Stepping) : edge s = coreStep s := by
  simp only [edge, h.noReset, h.running, h.noRequest, Bool.false_eq_true, if_false]

theorem edge_of_ended (h : s.pins.rst = false) (hr : s.run = .faulted ∨ s.run = .halted) : edge s = .next s := by
  rcases hr with hr | hr <;> simp only [edge, h, hr, Bool.false_eq_true, if_false]

theorem step_of_edge (h : edge s = .next t) : step s = .next t.afterEdge := congrArg endEdge h

/-! ### What a step does, by the byte under the advanced pc -/

/-- A step dispatches the byte under the advanced pc, in the state whose pc has advanced (40_dispatch.md R101). -/
theorem step_of_dispatch (h : s.Stepping) (hv : (advance s.par s.dir s.pc).valid s.par)
    (ht : dispatch (s.readCell (advance s.par s.dir s.pc)) (s.withPc (advance s.par s.dir s.pc)) = .next t) :
    step s = .next t.afterEdge :=
  step_of_edge ((edge_of_stepping h).trans ((coreStep_of_valid hv).trans ht))

section
variable (h : s.Stepping) (hv : (advance s.par s.dir s.pc).valid s.par)
  (hb : s.readCell (advance s.par s.dir s.pc) = b)
include h hv hb

theorem step_of_instr (hs : s.sm = false) (hd : decode b = some i)
    (ht : exec i (s.withPc (advance s.par s.dir s.pc)) = .next t) : step s = .next t.afterEdge := by
  refine step_of_dispatch h hv ?_
  rw [hb, dispatch, State.withPc_sm, if_neg (by simp [hs]), execute, hd]
  exact ht

theorem step_of_illegal (hs : s.sm = false) (hd : decode b = none) :
    step s = .next ((s.withPc (advance s.par s.dir s.pc)).faulted .unknownInstruction b 0).afterEdge := by
  refine step_of_dispatch h hv ?_
  rw [hb, dispatch, State.withPc_sm, if_neg (by simp [hs]), execute, hd]
  rfl

theorem step_of_quote (hs : s.sm = true) (hq : b = quoteByte) :
    step s = .next ((s.withPc (advance s.par s.dir s.pc)).withSm false).afterEdge := by
  refine step_of_dispatch h hv ?_
  rw [hb, dispatch, State.withPc_sm, if_pos hs, stringCell, if_pos hq, State.leaveString_eq]

theorem step_of_stringCell (hs : s.sm = true) (hq : b ≠ quoteByte) (hroom : s.depth < s.par.stackDepth) :
    step s = .next ((s.withPc (advance s.par s.dir s.pc)).withStack (zext b :: s.stack)).afterEdge := by
  refine step_of_dispatch h hv ?_
  rw [hb, dispatch, State.withPc_sm, if_pos hs, stringCell, if_neg hq]
  exact roomFor_ok hroom

theorem step_of_stringCell_full (hs : s.sm = true) (hq : b ≠ quoteByte) (hfull : s.par.stackDepth ≤ s.depth) :
    step s = .next ((s.withPc (advance s.par s.dir s.pc)).faulted .stackOverflow b 0).afterEdge := by
  refine step_of_dispatch h hv ?_
  rw [hb, dispatch, State.withPc_sm, if_pos hs, stringCell, if_neg hq]
  exact roomFor_full (Nat.lt_succ_of_le hfull)

end

/-! ### The obligations -/

/-- The codes of the 37 instructions, in the runs that the table has (30_encoding.md R81). -/
theorem opcodeTable_codes : opcodeTable.map (fun row => row.byte.toNat) =
    List.range' 0x20 7 ++ List.range' 0x2A 17 ++ [0x3C] ++ List.range' 0x3E 3 ++ [0x5C] ++ List.range' 0x5E 3 ++
      [0x67, 0x70, 0x76, 0x7C, 0x7E] := rfl

theorem decode_eq_none_iff_codes : decode b = none ↔ b.toNat ∉ opcodeTable.map fun row => row.byte.toNat := by
  simp [decode_eq_none_iff, ← BitVec.toNat_inj]

/-- Settles O3: the listed ranges are the gaps between the runs of codes, and a step onto an illegal byte raises the fault
in the state whose pc has advanced. -/
theorem illegalBytesAreTheListedRanges : Obligations.IllegalBytesAreTheListedRanges := by
  refine ⟨fun b => ?ranges, ?count, fun s b h hs hv hb hd => step_of_illegal h hv hb hs hd⟩
  case ranges =>
    have hlt := b.isLt
    rw [decode_eq_none_iff_codes, opcodeTable_codes]
    simp only [List.mem_append, List.mem_range'_1, List.mem_cons, List.not_mem_nil, or_false]
    omega
  case count => decide +kernel

end Sys2Proof.Machine
end

section
/-! PROOFS. The step's statements (40_dispatch.md R101 to R104), with `@` and the space (41_control_flow.md R127, R129). -/

namespace Sys2Proof.Machine

variable {s : State}

@[simp] theorem exec_nop : exec .nop s = .next s := rfl
@[simp] theorem exec_halt : exec .halt s = .next (s.withRun .halted) := rfl

/-- An edge without a reset leaves a core that has ended as it is (10_state.md R29). -/
theorem step_of_ended (h : s.pins.rst = false) (hr : s.run = .faulted ∨ s.run = .halted) : step s = .next s.afterEdge :=
  step_of_edge (edge_of_ended h hr)

/-- Settles O6: outside string mode a byte that decodes is executed in the state whose pc has advanced. -/
theorem stepRunsTheDecodedInstruction : Obligations.StepRunsTheDecodedInstruction := by
  intro s i h hs hv hd
  obtain ⟨t, ht⟩ := exec_answers i (s.withPc (advance s.par s.dir s.pc))
  exact ⟨t, ht, step_of_instr h hv rfl hs hd ht⟩

/-- Settles O7: a string cell is the quote, or there is room for it, or the stack is full. -/
theorem stringCellsArePushedUntilTheQuote : Obligations.StringCellsArePushedUntilTheQuote := by
  refine ⟨fun s h hs hv hb => ?quote, fun s op h hs hv hb hq => ⟨fun hroom => ?room, fun hfull => ?full⟩⟩
  case quote => exact step_of_quote h hv hb hs rfl
  case room => exact step_of_stringCell h hv hb hs hq hroom
  case full => exact step_of_stringCell_full h hv hb hs hq hfull

/-- Settles O14: `@` writes `run` alone, a core that has ended stays as it is, and 0x40 as a string cell is pushed. -/
theorem haltEndsTheRun : Obligations.HaltEndsTheRun :=
  ⟨Laws.RoundTrip.halt, fun _ => exec_halt, fun _ hr hrst => step_of_ended hrst (.inr hr),
    fun _ h hs hv hb hroom => step_of_stringCell h hv hb hs (by decide) hroom⟩

/-- Settles O16: a space writes nothing after the advance, and as a string cell it is pushed. -/
theorem nopOnlyAdvances : Obligations.NopOnlyAdvances :=
  ⟨Laws.RoundTrip.nop, fun _ => exec_nop, fun _ h hs hv hb => step_of_instr h hv hb hs Laws.RoundTrip.nop exec_nop,
    fun _ h hs hv hb hroom => step_of_stringCell h hv hb hs (by decide) hroom⟩

end Sys2Proof.Machine
end

section
/-! PROOFS. Several edges: an ended run, and the cells of a string literal (40_dispatch.md R106, 42_literals.md R151). -/

namespace Sys2Proof.Machine

variable {s t : State} {e : Env} {n : Nat}

/-! ### No reset among the next edges -/

theorem Env.pins_rst_of_take (h : ∀ p ∈ e.edges.take (n + 1), p.rst = false) : e.pins.rst = false := by
  unfold Env.pins
  split
  case h_1 p l hl => exact h p (by simp [hl])
  case h_2 => exact e.standing_rst

theorem Env.tail_rst_of_take (h : ∀ p ∈ e.edges.take (n + 1), p.rst = false) :
    ∀ p ∈ e.edges.tail.take n, p.rst = false := by
  intro p hp
  rw [← List.drop_one, List.take_drop] at hp
  exact h p (Nat.add_comm 1 n ▸ List.mem_of_mem_drop hp)

/-! ### An ended run -/

/-- Settles O44: by induction on the number of edges, each of which leaves the core as it is. -/
theorem endedRunStaysEnded : Obligations.EndedRunStaysEnded := by
  intro n
  induction n with
  | zero => intro s _ _; rfl
  | succ n ih =>
    intro s hr hrst
    rw [core_run_next (step_of_ended (Env.pins_rst_of_take hrst) hr), ih s.afterEdge hr (Env.tail_rst_of_take hrst)]
    simp

/-! ### The cells of a string literal -/

/-- A running core in string mode, which reads one more cell of the literal at each edge without a reset. -/
structure State.InLiteral (s : State) : Prop where
  pc : s.pc.valid s.par
  running : s.run = .run
  noRequest : s.pending = none
  string : s.sm = true

/-- The cell that the next step reads. -/
def State.nextCell (s : State) : Byte := s.readCell (advance s.par s.dir s.pc)

/-- The state after a step has pushed that cell. -/
def State.pushedCell (s : State) : State :=
  ((s.withPc (advance s.par s.dir s.pc)).withStack (zext s.nextCell :: s.stack)).afterEdge

namespace State.InLiteral

theorem stepping (h : s.InLiteral) (hrst : s.pins.rst = false) : s.Stepping := ⟨hrst, h.running, h.noRequest⟩

theorem pushedCell (h : s.InLiteral) : s.pushedCell.InLiteral := { h with pc := advance_valid _ h.pc }

theorem step_quote (h : s.InLiteral) (hrst : s.pins.rst = false) (hq : s.nextCell = quoteByte) :
    step s = .next ((s.withPc (advance s.par s.dir s.pc)).withSm false).afterEdge :=
  step_of_quote (h.stepping hrst) (advance_valid _ h.pc) rfl h.string hq

theorem step_cell (h : s.InLiteral) (hrst : s.pins.rst = false) (hq : s.nextCell ≠ quoteByte)
    (hroom : s.depth < s.par.stackDepth) : step s = .next s.pushedCell :=
  step_of_stringCell (h.stepping hrst) (advance_valid _ h.pc) rfl h.string hq hroom

theorem step_full (h : s.InLiteral) (hrst : s.pins.rst = false) (hq : s.nextCell ≠ quoteByte)
    (hfull : s.par.stackDepth ≤ s.depth) :
    step s = .next ((s.withPc (advance s.par s.dir s.pc)).faulted .stackOverflow s.nextCell 0).afterEdge :=
  step_of_stringCell_full (h.stepping hrst) (advance_valid _ h.pc) rfl h.string hq hfull

/-- The bytes that the next n steps read, in the order they are met. -/
def cells (s : State) (n : Nat) : List Byte := (List.range n).map fun k => s.readCell ((advance s.par s.dir)^[k + 1] s.pc)

theorem cells_succ (s : State) (n : Nat) : cells s (n + 1) = s.nextCell :: cells s.pushedCell n := by
  simp only [cells, List.range_succ_eq_map, List.map_cons, List.map_map]
  rfl

/-- n cells of a literal, none of them the quote, are pushed in the order they are met (42_literals.md R151). -/
theorem run_cells : ∀ {n : Nat} {s : State}, s.InLiteral → (∀ p ∈ s.env.edges.take n, p.rst = false) →
    s.depth + n ≤ s.par.stackDepth → (∀ b ∈ cells s n, b ≠ quoteByte) →
    Sys2Proof.core.run n s = .next { s with
      pc := (advance s.par s.dir)^[n] s.pc
      stack := ((cells s n).map zext).reverse ++ s.stack
      env := { s.env with edges := s.env.edges.drop n } }
  | 0, s, _, _, _, _ => rfl
  | n + 1, s, h, hrst, hroom, hq => by
    rw [cells_succ, List.forall_mem_cons] at hq
    have hstep := h.step_cell (Env.pins_rst_of_take hrst) hq.1 (by omega)
    have hroom' : s.pushedCell.depth + n ≤ s.par.stackDepth := by
      rw [show s.pushedCell.depth = s.depth + 1 from rfl]
      omega
    rw [core_run_next hstep, run_cells h.pushedCell (Env.tail_rst_of_take hrst) hroom' hq.2, cells_succ, List.map_cons,
      List.reverse_cons, List.append_assoc]
    simp [State.pushedCell]

/-- If one of the next n cells is the quote, the literal ends at it or overflows the stack before it. -/
theorem ends_at_quote : ∀ {n : Nat} {s : State}, s.InLiteral → (∀ p ∈ s.env.edges.take n, p.rst = false) →
    quoteByte ∈ cells s n →
    ∃ m t, 1 ≤ m ∧ m ≤ n ∧ Sys2Proof.core.run m s = .next t ∧
      ((t.run = .run ∧ t.sm = false ∧ t.grid = s.grid ∧ t.dir = s.dir) ∨
        (t.run = .faulted ∧ t.fault.code = .stackOverflow))
  | 0, _, _, _, hmem => absurd hmem List.not_mem_nil
  | n + 1, s, h, hrst, hmem => by
    have hrst0 : s.pins.rst = false := Env.pins_rst_of_take hrst
    by_cases hq : s.nextCell = quoteByte
    case pos => exact ⟨1, _, le_rfl, by omega, core_run_next (h.step_quote hrst0 hq), .inl ⟨h.running, rfl, rfl, rfl⟩⟩
    by_cases hfull : s.par.stackDepth ≤ s.depth
    case pos => exact ⟨1, _, le_rfl, by omega, core_run_next (h.step_full hrst0 hq hfull), .inr ⟨rfl, rfl⟩⟩
    rw [cells_succ, List.mem_cons, or_iff_right (Ne.symm hq)] at hmem
    obtain ⟨m, t, -, hmn, hrun, hend⟩ := ends_at_quote h.pushedCell (Env.tail_rst_of_take hrst) hmem
    exact ⟨m + 1, t, by omega, by omega, (core_run_next (h.step_cell hrst0 hq (by omega))).trans hrun, hend⟩

end State.InLiteral

/-! ### The obligations -/

/-- Settles O8: the induction over the literal's cells. -/
theorem stringLiteralPushesItsCellsInOrder : Obligations.StringLiteralPushesItsCellsInOrder := by
  intro n s hinv hr hp hs hrst hroom hq
  have hcells : ∀ b ∈ State.InLiteral.cells s n, b ≠ quoteByte := by
    simpa [State.InLiteral.cells, quoteByte] using hq
  rw [State.InLiteral.run_cells ⟨hinv.pc, hr, hp, hs⟩ hrst hroom hcells, State.InLiteral.cells, List.map_map]
  rfl

/-- Settles O9: once round the grid the literal is back on the quote that opened it. -/
theorem stringLiteralEnds : Obligations.StringLiteralEnds := by
  intro s hinv hr hp hs hquote bound hrst
  have hbound : bound = s.dir.round s.par := by cases hd : s.dir <;> simp [bound, hd, Dir.round]
  have hpos : 1 ≤ bound := by
    obtain ⟨hrow, hcol⟩ := hinv.pc
    cases hd : s.dir <;> simp only [bound, hd] <;> omega
  refine State.InLiteral.ends_at_quote ⟨hinv.pc, hr, hp, hs⟩ hrst
    (List.mem_map.2 ⟨bound - 1, List.mem_range.2 (Nat.sub_one_lt_of_lt hpos), ?_⟩)
  rw [Nat.sub_add_cancel hpos, hbound, iterate_advance_round _ hinv.pc, hquote]
  rfl

end Sys2Proof.Machine
end

section
/-! PROOFS. Input and output (43_io.md): the edge of a transfer, the four instructions, and a request that waits. -/

namespace Sys2Proof.Machine

variable {s t : State} {q : Request} {i : Instr} {k : IoKind} {v : Word} {rest : List Word}

/-! ### The outcomes of a transfer (43_io.md R160, R161) -/

theorem transfer_read_waits (h : s.pins.inValid = false) :
    transfer (.read k) s = .next (s.withPending (some (.read k))) := by
  cases k <;> exact if_neg (by simp [h])

/-- An answer that is no ParseError is pushed: of CHAR any, of INT one without `in_err`. -/
theorem transfer_read_answered (h : s.pins.inValid = true) (hk : k = .char ∨ s.pins.inErr = false) :
    transfer (.read k) s = .next ((s.tookAnswer s.wireAnswer).withStack (s.pins.inData :: s.stack)) := by
  cases k
  case char => exact if_pos h
  case int =>
    have herr : s.wireAnswer.err = false := hk.resolve_left nofun
    exact (if_pos h).trans (if_neg (by simp [herr]))

theorem transfer_read_parseError (h : s.pins.inValid = true) (herr : s.pins.inErr = true) :
    transfer (.read .int) s = .next ((s.tookAnswer s.wireAnswer).faulted .parseError (encode .innum) 0) :=
  (if_pos h).trans (if_pos herr)

/-- The answer that is not pushed is one to a read-int with `in_err`. -/
theorem parseError_of_not_pushed (h : ¬(k = .char ∨ s.pins.inErr = false)) : k = .int ∧ s.pins.inErr = true := by
  obtain ⟨hk, herr⟩ := not_or.1 h
  refine ⟨?_, Bool.not_eq_false _ ▸ herr⟩
  cases k
  · rfl
  · exact absurd rfl hk

theorem transfer_write_waits (h : s.pins.outReady = false) :
    transfer (.write k v) s = .next (s.withPending (some (.write k v))) := if_neg (by simp [h])

theorem transfer_write_accepted (h : s.pins.outReady = true) :
    transfer (.write k v) s = .next ((s.withStack s.stack.tail).sentWord { kind := k, word := v }) := if_pos h

/-- The answer on the wires, by its error level. -/
theorem wireAnswer_eq {e : Bool} (h : s.pins.inErr = e) : s.wireAnswer = { err := e, data := s.pins.inData } := by
  rw [← h]
  rfl

/-! ### The four instructions -/

/-- The word that `,` sends is v modulo 256 (43_io.md R166). -/
theorem zext_low8 (v : Word) : zext (low8 v) = v &&& 0xFF := by
  have hmask : v.toNat &&& (0xFF : Word).toNat = v.toNat % 2 ^ 8 := Nat.and_two_pow_sub_one_eq_mod v.toNat 8
  refine BitVec.eq_of_toNat_eq ?_
  rw [zext, low8, BitVec.toNat_setWidth, BitVec.toNat_setWidth, BitVec.toNat_and, hmask]
  omega

theorem exec_innum_of_room (h : s.depth < s.par.stackDepth) : exec .innum s = transfer (.read .int) s :=
  exec_of_issued (by rw [issued_innum, if_pos h])

theorem exec_inchr_of_room (h : s.depth < s.par.stackDepth) : exec .inchr s = transfer (.read .char) s :=
  exec_of_issued (by rw [issued_inchr, if_pos h])

theorem exec_outnum : exec .outnum s = oneOperand .outnum s fun v _ => transfer (.write .int v) s := rfl

theorem exec_outchr : exec .outchr s = oneOperand .outchr s fun v _ => transfer (.write .char (zext (low8 v))) s := rfl

theorem exec_outnum_cons (hs : s.stack = v :: rest) : exec .outnum s = transfer (.write .int v) s := oneOperand_cons hs

theorem exec_outchr_cons (hs : s.stack = v :: rest) : exec .outchr s = transfer (.write .char (v &&& 0xFF)) s :=
  zext_low8 v ▸ oneOperand_cons hs

/-- Reading checks its room before it makes the request (43_io.md R163, R164). -/
theorem exec_innum_of_full (h : s.par.stackDepth ≤ s.depth) :
    exec .innum s = .next (s.faulted .stackOverflow (encode .innum) 0) := roomFor_full (Nat.lt_succ_of_le h)

theorem exec_inchr_of_full (h : s.par.stackDepth ≤ s.depth) :
    exec .inchr s = .next (s.faulted .stackOverflow (encode .inchr) 0) := roomFor_full (Nat.lt_succ_of_le h)

/-! ### The obligations of the four instructions -/

/-- Settles O20: the transfer of a read-int with its three outcomes, after a room check. -/
theorem innumPushesTheAnswer : Obligations.InnumPushesTheAnswer := by
  refine ⟨Laws.RoundTrip.innum, fun s hroom hvalid herr => ?answered, fun s hroom hvalid herr => ?parseError,
    fun s hroom hvalid => ?waits, fun s hfull => exec_innum_of_full hfull⟩
  case answered =>
    rw [exec_innum_of_room hroom, transfer_read_answered hvalid (.inr herr), wireAnswer_eq herr]
    rfl
  case parseError =>
    rw [exec_innum_of_room hroom, transfer_read_parseError hvalid herr, wireAnswer_eq herr]
    rfl
  case waits => exact (exec_innum_of_room hroom).trans (transfer_read_waits hvalid)

/-- Settles O21: the transfer of a read-char with its two outcomes, after a room check. -/
theorem inchrPushesTheCodePoint : Obligations.InchrPushesTheCodePoint :=
  ⟨Laws.RoundTrip.inchr, fun _ hroom hvalid => (exec_inchr_of_room hroom).trans (transfer_read_answered hvalid (.inl rfl)),
    fun _ hroom hvalid => (exec_inchr_of_room hroom).trans (transfer_read_waits hvalid), fun _ => exec_inchr_of_full⟩

/-- Settles O22: the transfer of a write-int with its two outcomes, after a need check. -/
theorem outnumSendsTheValue : Obligations.OutnumSendsTheValue :=
  ⟨Laws.RoundTrip.outnum, fun _ _ _ hready => (exec_outnum_cons rfl).trans (transfer_write_accepted hready),
    fun _ _ _ hready => (exec_outnum_cons rfl).trans (transfer_write_waits hready),
    fun _ => exec_outnum.trans (oneOperand_nil rfl)⟩

/-- Settles O23: the transfer of a write-char with its two outcomes, after a need check. -/
theorem outchrSendsTheLowByte : Obligations.OutchrSendsTheLowByte :=
  ⟨Laws.RoundTrip.outchr, fun _ _ _ hready => (exec_outchr_cons rfl).trans (transfer_write_accepted hready),
    fun _ _ _ hready => (exec_outchr_cons rfl).trans (transfer_write_waits hready),
    fun _ => exec_outchr.trans (oneOperand_nil rfl)⟩

/-! ### The wires, by the request that is driven (10_state.md R36) -/

theorem wires_of_read (h : s.request = some (.read k)) :
    s.inReq = true ∧ s.inKind = some k.code ∧ s.outValid = false := by
  rw [State.inReq, State.inKind, State.outValid, h]
  exact ⟨rfl, rfl, rfl⟩

theorem wires_of_write (h : s.request = some (.write k v)) :
    s.outValid = true ∧ s.outKind = some k.code ∧ s.outData = some v ∧ s.inReq = false := by
  rw [State.outValid, State.outKind, State.outData, State.inReq, h]
  exact ⟨rfl, rfl, rfl, rfl⟩

theorem wires_of_none (h : s.request = none) : s.inReq = false ∧ s.outValid = false := by
  rw [State.inReq, State.outValid, h]
  exact ⟨rfl, rfl⟩

/-! ### A request that waits -/

theorem step_of_transfer (h : s.pins.rst = false) (hr : s.run = .run) (hq : s.pending = some q)
    (ht : transfer q s = .next t) : step s = .next t.afterEdge := step_of_edge ((edge_of_pending h hr hq).trans ht)

/-- To write the request that already waits is to write nothing. -/
theorem withPending_of_pending (hq : s.pending = some q) : s.withPending (some q) = s := by rw [← hq]; rfl

/-- Settles O24: the transfer waits on, and the wires are those of the waiting request. -/
theorem waitingTransferHoldsTheCore : Obligations.WaitingTransferHoldsTheCore := by
  intro s q hr hq hrst hsilent
  have hreq : s.request = some q := request_of_pending hr hq
  have hstep : transfer q s = .next s → step s = .next s.afterEdge := step_of_transfer hrst hr hq
  cases q with
  | read k =>
    refine ⟨hstep ((transfer_read_waits hsilent).trans (congrArg _ (withPending_of_pending hq))), ?_⟩
    cases k <;> exact wires_of_read hreq
  | write k v =>
    refine ⟨hstep ((transfer_write_waits hsilent).trans (congrArg _ (withPending_of_pending hq))), ?_⟩
    cases k <;> exact wires_of_write hreq

/-- Settles O25: the three ways a waiting transfer ends. -/
theorem waitingTransferCompletes : Obligations.WaitingTransferCompletes := by
  refine fun s hr hrst => ⟨fun k hq hvalid hk => ?answered, fun hq hvalid herr => ?parseError,
    fun k v x rest hq hready hs => ?accepted⟩
  case answered => exact step_of_transfer hrst hr hq (transfer_read_answered hvalid hk)
  case parseError =>
    rw [step_of_transfer hrst hr hq (transfer_read_parseError hvalid herr), wireAnswer_eq herr]
    rfl
  case accepted =>
    rw [step_of_transfer hrst hr hq (transfer_write_accepted hready), hs]
    rfl

end Sys2Proof.Machine
end

section
/-! PROOFS. Who writes what (10_state.md R21, R25, R27, R28, R31): one frame rule for each register and the grid, read off
the ways an instruction can end. -/

namespace Sys2Proof.Machine

variable {i : Instr} {s t : State} {k : IoKind}

/-! ### One rule for each register -/

section
variable (h : exec i s = .next t)
include h

theorem exec_par : t.par = s.par := by cases exec_ends h <;> rfl

theorem exec_busy : t.busy = s.busy := by cases exec_ends h <;> rfl

theorem exec_grid (hi : i ≠ .put) : t.grid = s.grid := by
  cases exec_ends h with
  | put _ _ _ _ _ _ _ hput => exact absurd hput hi
  | _ => rfl

theorem exec_dir (hi : i ∉ [Instr.up, .down, .left, .right, .hif, .vif, .rand]) : t.dir = s.dir := by
  cases exec_ends h with
  | branch _ _ _ _ hbranch => rcases hbranch with rfl | rfl <;> exact absurd (by decide) hi
  | turn _ hturn => rcases hturn with rfl | rfl | rfl | rfl <;> exact absurd (by decide) hi
  | random hrand => subst hrand; exact absurd (by decide) hi
  | _ => rfl

theorem exec_sm (hi : i ≠ .str) : t.sm = s.sm := by
  cases exec_ends h with
  | str hstr => exact absurd hstr hi
  | _ => rfl

/-- A fault apart, only `@` writes `run`. -/
theorem exec_run (hi : i ≠ .halt) (hf : t.run ≠ .faulted) : t.run = s.run := by
  cases exec_ends h with
  | fault | parseError => exact absurd rfl hf
  | halt hhalt => exact absurd hhalt hi
  | _ => rfl

theorem exec_fault (hf : t.run ≠ .faulted) : t.fault = s.fault := by
  cases exec_ends h with
  | fault | parseError => exact absurd rfl hf
  | _ => rfl

/-- An instruction without operands and results leaves the stack. -/
theorem exec_stack (hi : i ∈ [Instr.nop, .str, .bridge, .left, .right, .up, .down, .rand, .halt]) :
    t.stack = s.stack := by
  cases exec_ends h with
  | reads hread => rcases hread with rfl | rfl <;> exact absurd hi (by decide)
  | writes _ _ _ _ hwrite => rcases hwrite with rfl | rfl <;> exact absurd hi (by decide)
  | stack _ hst => exact absurd hst (by revert hi; cases i <;> decide)
  | branch _ _ _ _ hbranch => rcases hbranch with rfl | rfl <;> exact absurd hi (by decide)
  | put _ _ _ _ _ _ _ hput => subst hput; exact absurd hi (by decide)
  | _ => rfl

end

/-! ### The obligations -/

/-- Settles O54: the rules of the registers together. -/
theorem eachRegisterHasItsWriters : Obligations.EachRegisterHasItsWriters := by
  intro i s
  obtain ⟨t, h⟩ := exec_answers i s
  exact ⟨t, h, exec_par h, exec_busy h, exec_grid h, exec_dir h, exec_sm h, exec_run h, exec_fault h, exec_stack h⟩

/-- Settles O55: each way to complete takes the operands and puts the results that the table counts. -/
theorem depthChangesByTheTable : Obligations.DepthChangesByTheTable := by
  intro i s t hr hp h hf hdone
  cases exec_ends h with
  | fault | parseError => exact absurd rfl hf
  | waitsForAnswer | waitsToSend => cases hdone
  | reads hi => rcases hi with rfl | rfl <;> simp [pops, pushes, State.depth]
  | writes _ _ _ hs hi => rcases hi with rfl | rfl <;> simp [pops, pushes, State.depth, hs]
  | stack _ _ hneed hlen => exact ⟨hneed, hlen⟩
  | branch _ _ _ hs hi => rcases hi with rfl | rfl <;> simp [pops, pushes, State.depth, hs]
  | turn _ hi => rcases hi with rfl | rfl | rfl | rfl <;> exact ⟨Nat.zero_le _, rfl⟩
  | random hi | halt hi | bridge hi | nop hi | str hi => subst hi; exact ⟨Nat.zero_le _, rfl⟩
  | put _ _ _ _ _ hs _ hi => subst hi; simp [pops, pushes, State.depth, hs]

/-! ### The port (43_io.md R162) -/

/-- `&` and `~` overflow or make the transfer of a read. -/
theorem exec_of_reading (hi : i ∈ [Instr.innum, .inchr]) :
    exec i s = .next (s.faulted .stackOverflow (encode i) 0) ∨ ∃ k, exec i s = transfer (.read k) s := by
  simp only [List.mem_cons, List.not_mem_nil, or_false] at hi
  rcases lt_or_ge s.depth s.par.stackDepth with hroom | hfull
  · right
    rcases hi with rfl | rfl
    · exact ⟨.int, exec_innum_of_room hroom⟩
    · exact ⟨.char, exec_inchr_of_room hroom⟩
  · left
    rcases hi with rfl | rfl
    · exact exec_innum_of_full hfull
    · exact exec_inchr_of_full hfull

/-- `.` and `,` underflow or make the transfer of a write. -/
theorem exec_of_writing (hi : i ∈ [Instr.outnum, .outchr]) :
    exec i s = .next (s.faulted .stackUnderflow (encode i) (BitVec.ofNat 2 (pops i))) ∨
      ∃ k v, exec i s = transfer (.write k v) s := by
  simp only [List.mem_cons, List.not_mem_nil, or_false] at hi
  cases hs : s.stack with
  | nil =>
    left
    rcases hi with rfl | rfl
    · exact exec_outnum.trans (oneOperand_nil hs)
    · exact exec_outchr.trans (oneOperand_nil hs)
  | cons v rest =>
    right
    rcases hi with rfl | rfl
    · exact ⟨_, _, exec_outnum_cons hs⟩
    · exact ⟨_, _, exec_outchr_cons hs⟩

/-- Settles O26: a read or a write makes one transfer at most, and the others make no request. -/
theorem onlyIoInstructionsTouchThePort : Obligations.OnlyIoInstructionsTouchThePort := by
  intro i s
  obtain ⟨t, h⟩ := exec_answers i s
  refine ⟨t, h, fun hi => ?reading, fun hi => ?writing, fun hi => ?other⟩
  case reading =>
    rcases exec_of_reading (s := s) hi with hx | ⟨k, hx⟩
    · cases hx.symm.trans h
      exact ⟨rfl, .inl ⟨rfl, rfl⟩⟩
    · rcases transfer_cases (hx.symm.trans h) with rfl | ⟨k', -, -, rfl⟩ | ⟨-, -, -, rfl⟩ | ⟨_, _, hq, -⟩
      · exact ⟨rfl, .inl ⟨rfl, rfl⟩⟩
      · exact ⟨rfl, .inr ⟨_, rfl, .inl rfl⟩⟩
      · exact ⟨rfl, .inr ⟨_, rfl, .inr rfl⟩⟩
      · cases hq
  case writing =>
    rcases exec_of_writing (s := s) hi with hx | ⟨k, v, hx⟩
    · cases hx.symm.trans h
      exact ⟨rfl, .inl ⟨rfl, rfl⟩⟩
    · rcases transfer_cases (hx.symm.trans h) with rfl | ⟨_, hq, -⟩ | ⟨hq, -⟩ | ⟨k', v', -, -, rfl⟩
      · exact ⟨rfl, .inl ⟨rfl, rfl⟩⟩
      · cases hq
      · cases hq
      · exact ⟨rfl, .inr ⟨_, rfl, rfl⟩⟩
  case other =>
    obtain ⟨htook, hout, hpending, hanswers⟩ := exec_without_request (issued_of_no_io hi) h
    exact ⟨hout, htook, hpending, hanswers⟩

end Sys2Proof.Machine
end

section
/-! PROOFS. `:`, `?` and `"` (45_stack.md R200, 41_control_flow.md R126, 42_literals.md R150). -/

namespace Sys2Proof.Machine

variable {s : State} {v : Word} {rest : List Word}

/-! ### What each instruction does -/

@[simp] theorem exec_str : exec .str s = .next (s.withSm true) := rfl

@[simp] theorem exec_rand : exec .rand s = .next ((s.withDir (Dir.ofCode s.pins.rnd)).withEnv s.env.afterDraw) := rfl

theorem exec_dup : exec .dup s =
    oneOperand .dup s fun v rest => room .dup s (.next (s.withStack (v :: v :: rest))) := rfl

theorem exec_dup_of_room (hs : s.stack = v :: rest) (h : rest.length + 1 < s.par.stackDepth) :
    exec .dup s = .next (s.withStack (v :: v :: rest)) := by
  rw [exec_dup, oneOperand_cons hs]
  refine roomFor_ok ?_
  simp only [State.depth, hs, pops, pushes, List.length_cons]
  omega

theorem exec_dup_of_full (hs : s.stack = v :: rest) (h : s.par.stackDepth ≤ rest.length + 1) :
    exec .dup s = .next (s.faulted .stackOverflow (encode .dup) 0) := by
  rw [exec_dup, oneOperand_cons hs]
  refine roomFor_full ?_
  simp only [State.depth, hs, pops, pushes, List.length_cons]
  omega

/-- The direction register's code is what a draw of that direction carries (10_state.md R25). -/
theorem ofCode_code (d : Dir) : Dir.ofCode d.code = d := by cases d <;> rfl

/-! ### The obligations -/

/-- Settles O35: one operand and a room check. -/
theorem dupCopiesTheTop : Obligations.DupCopiesTheTop :=
  ⟨Laws.RoundTrip.dup, fun _ _ _ hroom => exec_dup_of_room rfl hroom, fun _ _ _ hfull => exec_dup_of_full rfl hfull,
    fun _ => exec_dup.trans (oneOperand_nil rfl)⟩

/-- Settles O19: a quote outside string mode writes `sm` alone. -/
theorem strEntersStringMode : Obligations.StrEntersStringMode := ⟨Laws.RoundTrip.str, fun _ => exec_str⟩

/-- Settles O13: the draw of a standing host that is about to give the code of a direction leads to it; with no draw given
the wire carries the free value. -/
theorem randSetsTheDrawnDirection : Obligations.RandSetsTheDrawnDirection := by
  refine ⟨Laws.RoundTrip.rand, fun _ => exec_rand, by decide, fun s d => ?possible, fun s hedges hdraws => ?free⟩
  case possible => exact ⟨{ Env.initial with draws := [d.code] }, _, exec_rand, ofCode_code d⟩
  case free =>
    have hdraw : s.env.draw = Config.rndDraw s.env.drawn := by simp [Env.draw, hdraws]
    refine ⟨?_, by simp [Env.afterDraw, hedges, hdraws]⟩
    rw [State.pins, Env.pins_of_edges_nil hedges, ← hdraw, Env.standing]
    split <;> rfl

/-- Settles O45: the encodings are evaluated, and `DirOf` gives each direction back. -/
theorem statusEncodings : Obligations.StatusEncodings :=
  ⟨⟨rfl, rfl, rfl, rfl⟩, ofCode_code, ⟨rfl, rfl, rfl, rfl⟩, ⟨rfl, rfl, rfl, rfl, rfl, rfl, rfl, rfl⟩⟩

end Sys2Proof.Machine
end

section
/-! PROOFS. Grid put (46_grid_access.md R211): `p`, and what a later fetch of the written cell sees (20_memory.md R73). -/

namespace Sys2Proof.Machine

variable {s t : State} {r c v : Word} {rest : List Word}

/-! ### The outcomes of `p` -/

theorem putRejected_iff {p : Params} : putRejected p v = true ↔ p.putPolicy = .fault ∧ (v.toInt < 0 ∨ 255 < v.toInt) := by
  simp [putRejected]

theorem exec_put : exec .put s = execPut s := rfl

theorem exec_put_of_accepted (hs : s.stack = r :: c :: v :: rest) (h : onGrid s.par r c)
    (hv : putRejected s.par v = false) :
    exec .put s = .next ((s.withStack rest).writeCell ⟨r.toInt.toNat, c.toInt.toNat⟩ (low8 v)) := by
  rw [exec_put, execPut, threeOperands_cons hs, gridCoord_in h]
  exact if_neg (by simp [hv])

theorem exec_put_of_rejected (hs : s.stack = r :: c :: v :: rest) (h : onGrid s.par r c)
    (hv : putRejected s.par v = true) : exec .put s = .next (s.faulted .putValueRange (encode .put) 0) := by
  rw [exec_put, execPut, threeOperands_cons hs, gridCoord_in h]
  exact if_pos hv

theorem exec_put_of_not_onGrid (hs : s.stack = r :: c :: v :: rest) (h : ¬onGrid s.par r c) :
    exec .put s = .next (s.faulted .outOfBounds (encode .put) 0) := by
  rw [exec_put, execPut, threeOperands_cons hs, gridCoord_out h, raise_eq]

theorem exec_put_of_short (h : s.depth < 3) :
    exec .put s = .next (s.faulted .stackUnderflow (encode .put) (BitVec.ofNat 2 (pops .put))) := by
  rw [exec_put, execPut, threeOperands_short h, underflow_eq]

/-- A pair in the grid is a coordinate of the grid (20_memory.md R69). -/
theorem valid_of_onGrid {p : Params} (h : onGrid p r c) : Coord.valid p ⟨r.toInt.toNat, c.toInt.toNat⟩ :=
  gridCoord_valid (gridCoord_in h)

/-- A `p` that raised no fault was accepted. -/
theorem exec_put_of_running (hs : s.stack = r :: c :: v :: rest) (h : onGrid s.par r c) (ht : exec .put s = .next t)
    (hr : t.run = .run) : t = (s.withStack rest).writeCell ⟨r.toInt.toNat, c.toInt.toNat⟩ (low8 v) := by
  cases hv : putRejected s.par v with
  | false => cases ht.symm.trans (exec_put_of_accepted hs h hv); rfl
  | true => cases ht.symm.trans (exec_put_of_rejected hs h hv); cases hr

/-! ### The obligations -/

/-- Settles O39: an accepted `p` is one write of the grid, with the grid's laws for the cells; the other outcomes are the
need check, the bounds check and the value check. -/
theorem putWritesTheCell : Obligations.PutWritesTheCell := by
  refine ⟨Laws.RoundTrip.put, fun s r c v rest hwf hin hv => ?written, fun s r c v rest hout => ?outside,
    fun s r c v rest hin hpolicy hv => ?rejected, fun s hshort => exec_put_of_short hshort⟩
  case written =>
    have haccept : putRejected s.par v = false := by
      rw [← Bool.not_eq_true, putRejected_iff]
      rintro ⟨hpolicy, hrange⟩
      rcases hv with htruncate | hrange'
      · cases hpolicy.symm.trans htruncate
      · omega
    have ha := valid_of_onGrid hin
    exact ⟨_, exec_put_of_accepted rfl hin haccept, rfl, State.writeCell_wf _ ha hwf, State.readCell_writeCell_same _ _ hwf,
      fun b hb hne => State.readCell_writeCell_other _ ha hb hne⟩
  case outside => exact exec_put_of_not_onGrid rfl hout
  case rejected => exact exec_put_of_rejected rfl hin (putRejected_iff.2 ⟨hpolicy, hv⟩)

/-- Settles O40: the cell holds the byte that the `p` wrote, and a step that lands on it is the step of that byte. -/
theorem putIsSeenByTheNextFetch : Obligations.PutIsSeenByTheNextFetch := by
  intro s u t r c v rest hinv hs hin hput hrun a b hpar hsame hstep hland
  obtain rfl := exec_put_of_running hs hin hput hrun
  have hbyte : t.readCell (advance t.par t.dir t.pc) = b := by
    rw [hland, hsame]
    exact State.readCell_writeCell_same _ _ hinv.grid
  have hv : (advance t.par t.dir t.pc).valid t.par := by
    rw [hland, hpar]
    exact valid_of_onGrid hin
  rw [← hland]
  refine ⟨fun hsm i hd => ?instr, fun hsm hd => ?illegal, fun hsm hq hroom => ?cell, fun hsm hq hfull => ?full,
    fun hsm hq => ?quote⟩
  case instr =>
    obtain ⟨w, hw⟩ := exec_answers i (t.withPc (advance t.par t.dir t.pc))
    exact ⟨w, hw, step_of_instr hstep hv hbyte hsm hd hw⟩
  case illegal => exact step_of_illegal hstep hv hbyte hsm hd
  case cell => exact step_of_stringCell hstep hv hbyte hsm hq hroom
  case full => exact step_of_stringCell_full hstep hv hbyte hsm hq hfull
  case quote => exact step_of_quote hstep hv hbyte hsm hq

end Sys2Proof.Machine
end

section
/-! PROOFS. The order of the checks (60_exceptions.md R238): need, room, then what the operands and the port say. -/

namespace Sys2Proof.Machine

variable {i : Instr} {s t : State} {code : FaultCode} {op : Byte} {need : BitVec 2} {k : Result}

/-! ### Raising exactly one fault code -/

/-- The result is a next state with that fault code, which is FAULTED exactly if the code is that of a fault. -/
def Raises (r : Result) (code : FaultCode) : Prop :=
  ∃ t, r = .next t ∧ t.fault.code = code ∧ (t.run = .faulted ↔ code ≠ .none)

theorem raises_faulted (hc : code ≠ .none) : Raises (.next (s.faulted code op need)) code :=
  ⟨_, rfl, rfl, fun _ => hc, fun _ => rfl⟩

theorem raises_none (hr : t.run ≠ .faulted) (hf : t.fault = FaultRecord.clear) : Raises (.next t) .none :=
  ⟨t, rfl, by rw [hf]; rfl, fun h => absurd h hr, fun h => absurd rfl h⟩

theorem raises_roomFor {popped pushed : Nat} (h : s.depth - popped + pushed ≤ s.par.stackDepth) (hk : Raises k code) :
    Raises (roomFor popped pushed op s k) code := by rwa [roomFor_ok h]

theorem raises_oneOperand {f : Word → List Word → Result} {x : Word} {rest : List Word} (hs : s.stack = x :: rest)
    (h : Raises (f x rest) code) : Raises (oneOperand i s f) code := by rwa [oneOperand_cons hs]

theorem raises_twoOperands {f : Word → Word → List Word → Result} {y x : Word} {rest : List Word}
    (hs : s.stack = y :: x :: rest) (h : Raises (f y x rest) code) : Raises (twoOperands i s f) code := by
  rwa [twoOperands_cons hs]

/-! ### What is on a stack that meets a need count -/

theorem stack_of_one (h : 1 ≤ s.depth) : ∃ x rest, s.stack = x :: rest := by
  match hs : s.stack with
  | x :: rest => exact ⟨x, rest, rfl⟩
  | [] => simp [State.depth, hs] at h

theorem stack_of_two (h : 2 ≤ s.depth) : ∃ y x rest, s.stack = y :: x :: rest := by
  match hs : s.stack with
  | y :: x :: rest => exact ⟨y, x, rest, rfl⟩
  | [_] | [] => simp [State.depth, hs] at h

theorem stack_of_three (h : 3 ≤ s.depth) : ∃ a b c rest, s.stack = a :: b :: c :: rest := by
  match hs : s.stack with
  | a :: b :: c :: rest => exact ⟨a, b, c, rest, rfl⟩
  | [_, _] | [_] | [] => simp [State.depth, hs] at h

/-! ### The checks in their order -/

/-- With its operands but without room, an instruction overflows: only those that push more than they pop can. -/
theorem exec_of_full (hneed : pops i ≤ s.depth) (hd : s.depth ≤ s.par.stackDepth)
    (hfull : s.par.stackDepth + pops i < s.depth + pushes i) :
    exec i s = .next (s.faulted .stackOverflow (encode i) 0) := by
  have hmore : pops i < pushes i := by omega
  have hroom : s.par.stackDepth < s.depth - pops i + pushes i := by omega
  cases i
  case push0 | push1 | push2 | push3 | push4 | push5 | push6 | push7 | push8 | push9 | innum | inchr =>
    exact roomFor_full hroom
  case dup =>
    obtain ⟨x, rest, hs⟩ := stack_of_one hneed
    rw [exec_dup, oneOperand_cons hs]
    exact roomFor_full hroom
  all_goals exact absurd hmore (by decide)

/-- A transfer raises ParseError on an INT answer with `in_err`, and nothing else. -/
theorem raises_transfer (q : Request) (hr : s.run = .run) (hf : s.fault = FaultRecord.clear) :
    Raises (transfer q s)
      (if q = .read .int ∧ s.pins.inValid = true ∧ s.pins.inErr = true then .parseError else .none) := by
  have hrun : s.run ≠ .faulted := by rw [hr]; nofun
  obtain ⟨t, ht⟩ := transfer_answers q s
  rw [ht]
  split
  case isTrue h =>
    obtain ⟨rfl, hvalid, herr⟩ := h
    cases ht.symm.trans (transfer_read_parseError hvalid herr)
    exact raises_faulted nofun
  case isFalse h =>
    rcases transfer_cases ht with rfl | ⟨_, -, -, rfl⟩ | ⟨hq, hvalid, herr, -⟩ | ⟨_, _, -, -, rfl⟩
    · exact raises_none hrun hf
    · exact raises_none hrun hf
    · exact absurd ⟨hq, hvalid, herr⟩ h
    · exact raises_none hrun hf

/-- With its operands and room, an instruction raises what its operands or the port's answer call for. -/
theorem exec_raises_operandFault (hr : s.run = .run) (hf : s.fault = FaultRecord.clear) (hneed : pops i ≤ s.depth)
    (hroom : s.depth - pops i + pushes i ≤ s.par.stackDepth) : Raises (exec i s) (operandFault i s) := by
  have hrun : s.run ≠ .faulted := by rw [hr]; nofun
  cases i
  case nop | str | bridge | left | right | up | down | rand => exact raises_none hrun hf
  case halt => exact raises_none nofun hf
  case push0 | push1 | push2 | push3 | push4 | push5 | push6 | push7 | push8 | push9 =>
    exact raises_roomFor hroom (raises_none hrun hf)
  case innum => exact raises_roomFor hroom (by simpa [operandFault] using raises_transfer (.read .int) hr hf)
  case inchr => exact raises_roomFor hroom (by simpa [operandFault] using raises_transfer (.read .char) hr hf)
  case not | drop | hif | vif =>
    obtain ⟨x, rest, hs⟩ := stack_of_one hneed
    exact raises_oneOperand hs (raises_none hrun hf)
  case dup =>
    obtain ⟨x, rest, hs⟩ := stack_of_one hneed
    exact raises_oneOperand hs (raises_roomFor hroom (raises_none hrun hf))
  case outnum =>
    obtain ⟨x, rest, hs⟩ := stack_of_one hneed
    rw [exec_outnum_cons hs]
    simpa [operandFault] using raises_transfer (.write .int x) hr hf
  case outchr =>
    obtain ⟨x, rest, hs⟩ := stack_of_one hneed
    rw [exec_outchr_cons hs]
    simpa [operandFault] using raises_transfer (.write .char (x &&& 0xFF)) hr hf
  case add | sub | mul | gt | swap =>
    obtain ⟨y, x, rest, hs⟩ := stack_of_two hneed
    exact raises_twoOperands hs (raises_none hrun hf)
  case div | mod =>
    obtain ⟨y, x, rest, hs⟩ := stack_of_two hneed
    simp only [operandFault, hs]
    refine raises_twoOperands hs ?_
    split
    · exact raises_faulted nofun
    · exact raises_none hrun hf
  case get =>
    obtain ⟨r, c, rest, hs⟩ := stack_of_two hneed
    simp only [operandFault, hs]
    split
    case isTrue hin => exact exec_get_of_onGrid hs hin ▸ raises_none hrun hf
    case isFalse hout => exact exec_get_of_not_onGrid hs hout ▸ raises_faulted nofun
  case put =>
    obtain ⟨r, c, v, rest, hs⟩ := stack_of_three hneed
    simp only [operandFault, hs, ← putRejected_iff]
    split_ifs with hin hrejected
    · exact exec_put_of_rejected hs hin hrejected ▸ raises_faulted nofun
    · exact exec_put_of_accepted hs hin (Bool.eq_false_iff.2 hrejected) ▸ raises_none hrun hf
    · exact exec_put_of_not_onGrid hs hin ▸ raises_faulted nofun

theorem exec_raises_firstFault (hr : s.run = .run) (hf : s.fault = FaultRecord.clear) (hd : s.depth ≤ s.par.stackDepth) :
    Raises (exec i s) (firstFault i s) := by
  rw [firstFault, show s.stack.length = s.depth from rfl]
  split_ifs with hshort hfull
  · rw [exec_of_short hshort, underflow_eq]
    exact raises_faulted nofun
  · rw [exec_of_full (Nat.le_of_not_lt hshort) hd hfull]
    exact raises_faulted nofun
  · exact exec_raises_operandFault hr hf (Nat.le_of_not_lt hshort) (by omega)

/-! ### The obligation -/

/-- Settles O42: the checks in their order; an illegal byte is not executed at all. -/
theorem firstFailingCheckIsRaised : Obligations.FirstFailingCheckIsRaised := by
  refine ⟨fun i s hr hf hd => exec_raises_firstFault hr hf hd, fun s b hb => ?illegal, by decide⟩
  refine ⟨s.faulted .unknownInstruction b 0, ?_, rfl⟩
  rw [execute, hb, raise_eq]

end Sys2Proof.Machine
end

section
/-! PROOFS. Whole-machine rules of a step: precise faults (60_exceptions.md R240), the run states (10_state.md R29), and the
one cell that may change (20_memory.md R61, R64). -/

namespace Sys2Proof.Machine

variable {i : Instr} {s t : State} {q : Request} {op : Byte}

/-- A cell reads as before where the parameters and the grid's list are as before. -/
theorem readCell_congr (hp : t.par = s.par) (hg : t.grid = s.grid) (c : Coord) : t.readCell c = s.readCell c := by
  rw [State.readCell, hp, hg, State.readCell]

/-! ### What a fault keeps -/

/-- t has what s has, but for `run`, the fault record and the host's side (60_exceptions.md R240). -/
structure FaultKeeps (s t : State) : Prop where
  par : t.par = s.par
  grid : t.grid = s.grid
  stack : t.stack = s.stack
  pc : t.pc = s.pc
  dir : t.dir = s.dir
  sm : t.sm = s.sm
  out : t.out = s.out

theorem exec_faultKeeps (hr : s.run ≠ .faulted) (h : exec i s = .next t) (hf : t.run = .faulted) : FaultKeeps s t := by
  cases exec_ends h with
  | fault | parseError => exact ⟨rfl, rfl, rfl, rfl, rfl, rfl, rfl⟩
  | halt => cases hf
  | _ => exact absurd hf hr

theorem dispatch_faultKeeps (hr : s.run ≠ .faulted) (h : dispatch op s = .next t) (hf : t.run = .faulted) :
    FaultKeeps s t := by
  rcases dispatch_cases h with ⟨-, -, rfl⟩ | ⟨-, -, -, rfl⟩ | ⟨-, -, -, rfl⟩ | ⟨-, -, rfl⟩ | ⟨i, -, -, h⟩
  · exact absurd hf hr
  · exact ⟨rfl, rfl, rfl, rfl, rfl, rfl, rfl⟩
  · exact absurd hf hr
  · exact ⟨rfl, rfl, rfl, rfl, rfl, rfl, rfl⟩
  · exact exec_faultKeeps hr h hf

theorem transfer_faultKeeps (hr : s.run ≠ .faulted) (h : transfer q s = .next t) (hf : t.run = .faulted) :
    FaultKeeps s t := by
  rcases transfer_cases h with rfl | ⟨_, -, -, rfl⟩ | ⟨-, -, -, rfl⟩ | ⟨_, _, -, -, rfl⟩
  · exact absurd hf hr
  · exact absurd hf hr
  · exact ⟨rfl, rfl, rfl, rfl, rfl, rfl, rfl⟩
  · exact absurd hf hr

/-- The cell that an edge of a running core works on: the one it advances onto, or waits on. -/
def State.workPc (s : State) : Coord := if s.pending = none then advance s.par s.dir s.pc else s.pc

theorem edge_faultKeeps (hr : s.run = .run) (h : edge s = .next t) (hf : t.run = .faulted) :
    FaultKeeps (s.withPc s.workPc) t := by
  have hrun : s.run ≠ .faulted := by rw [hr]; nofun
  rcases edge_cases h with ⟨-, rfl⟩ | ⟨-, ⟨hidle, -⟩ | ⟨q, -, hq, h⟩ | ⟨-, hp, h⟩ | ⟨hended, -⟩⟩
  · cases hf
  · cases hr.symm.trans hidle
  · rw [State.workPc, if_neg (by simp [hq])]
    exact transfer_faultKeeps hrun h hf
  · rw [State.workPc, if_pos hp]
    exact dispatch_faultKeeps hrun (coreStep_cases h).2 hf
  · rcases hended with hended | hended <;> cases hr.symm.trans hended

/-- Settles O43: the record is that of the invariant, which the step keeps, and everything else is what the fault keeps. -/
theorem faultsArePrecise : Obligations.FaultsArePrecise := by
  intro s t hinv hr h hf
  obtain ⟨hcode, hop, hdepth, -, hneed, -⟩ := (step_inv hinv h).faulted hf
  obtain ⟨u, hu, rfl⟩ := step_cases h
  have hkeeps := edge_faultKeeps hr hu hf
  exact ⟨hkeeps.pc, hcode, hop.trans (readCell_congr hkeeps.par hkeeps.grid _),
    hdepth.trans (congrArg List.length hkeeps.stack), hneed, hkeeps.stack, hkeeps.grid, hkeeps.dir, hkeeps.sm, hkeeps.out,
    hkeeps.par⟩

/-! ### The run states -/

/-- Out of RUN lead only `@` and a fault. -/
theorem exec_run_cases (hr : s.run = .run) (h : exec i s = .next t) :
    t.run = .run ∨ t.run = .halted ∧ i = .halt ∨ t.run = .faulted := by
  cases exec_ends h with
  | fault | parseError => exact .inr (.inr rfl)
  | halt hi => exact .inr (.inl ⟨rfl, hi⟩)
  | _ => exact .inl hr

theorem dispatch_run_cases (h : dispatch op s = .next t) (hr : s.run = .run) :
    t.run = .run ∨ t.run = .halted ∧ s.sm = false ∧ op = encode .halt ∨ t.run = .faulted := by
  rcases dispatch_cases h with ⟨-, -, rfl⟩ | ⟨-, -, -, rfl⟩ | ⟨-, -, -, rfl⟩ | ⟨-, -, rfl⟩ | ⟨i, hs, hd, h⟩
  · exact .inl hr
  · exact .inr (.inr rfl)
  · exact .inl hr
  · exact .inr (.inr rfl)
  · rcases exec_run_cases hr h with hrun | ⟨hrun, rfl⟩ | hrun
    · exact .inl hrun
    · exact .inr (.inl ⟨hrun, hs, (encode_of_decode hd).symm⟩)
    · exact .inr (.inr hrun)

theorem transfer_run_cases (hr : s.run = .run) (h : transfer q s = .next t) : t.run = .run ∨ t.run = .faulted := by
  rcases transfer_cases h with rfl | ⟨_, -, -, rfl⟩ | ⟨-, -, -, rfl⟩ | ⟨_, _, -, -, rfl⟩
  · exact .inl hr
  · exact .inl hr
  · exact .inr rfl
  · exact .inl hr

/-- An edge in IDLE without a reset stays there or starts the run, and writes but `run`, the grid and `busy`. -/
theorem idleEdge_cases (hr : s.run = .idle) :
    (s.idleEdge.run = .idle ∨ s.idleEdge.run = .run ∧ s.pins.start = true ∧ s.rstBusy = false) ∧
      s.idleEdge = { s with run := s.idleEdge.run, grid := s.idleEdge.grid, busy := s.idleEdge.busy } := by
  by_cases hb : s.busy = 0
  case neg => rw [idleEdge_busy hb]; exact ⟨.inl hr, rfl⟩
  case pos =>
    rw [idleEdge_ready hb]
    refine ⟨?_, rfl⟩
    by_cases hstart : s.pins.start = true
    · exact .inr ⟨if_pos hstart, hstart, by simp [State.rstBusy, hb]⟩
    · exact .inl ((if_neg hstart).trans hr)

/-- Settles O50: the transitions of each run state; that a FAULTED state has a fault code is the invariant's. -/
theorem runStateTransitions : Obligations.RunStateTransitions := by
  intro s t hinv h
  have hcode : t.run = .faulted → t.fault.code ≠ .none := fun hf => ((step_inv hinv h).faulted hf).1
  obtain ⟨u, hu, rfl⟩ := step_cases h
  rcases edge_cases hu with ⟨hrst, rfl⟩ | ⟨hrst, ⟨hr, rfl⟩ | ⟨q, hr, hq, hu⟩ | ⟨hr, hp, hu⟩ | ⟨hr, rfl⟩⟩
  · exact .inl ⟨hrst, rfl⟩
  · obtain ⟨hrun, hrest⟩ := idleEdge_cases hr
    refine .inr ⟨hrst, .inl ⟨hr, hrun⟩, fun _ => ?_, fun hended => by simp [hr] at hended⟩
    rw [hrest]
    exact ⟨rfl, rfl, rfl, rfl, rfl⟩
  · refine .inr ⟨hrst, .inr (.inl ⟨hr, ?_⟩), fun hn => absurd hr hn, fun hended => by simp [hr] at hended⟩
    exact (transfer_run_cases hr hu).imp_right fun hf => .inr ⟨hf, hcode hf⟩
  · refine .inr ⟨hrst, .inr (.inl ⟨hr, ?_⟩), fun hn => absurd hr hn, fun hended => by simp [hr] at hended⟩
    rcases dispatch_run_cases (coreStep_cases hu).2 hr with hrun | ⟨hrun, hs, hop⟩ | hf
    · exact .inl hrun
    · exact .inr (.inl ⟨hrun, hp, hs, hop⟩)
    · exact .inr (.inr ⟨hf, hcode hf⟩)
  · exact .inr ⟨hrst, .inr (.inr (hr.imp (fun hr => ⟨hr, hr⟩) fun hr => ⟨hr, hr⟩)), fun _ => ⟨rfl, rfl, rfl, rfl, rfl⟩,
      fun _ => rfl⟩

/-! ### The one cell that may change -/

/-- A write changes the cell it names, to the byte it gives, and no other. -/
theorem writeCell_changes {a c : Coord} {v : Byte} (hwf : Memory.wf s.par s.grid) (hc : c.valid s.par) (ha : a.valid s.par)
    (hne : (s.writeCell c v).readCell a ≠ s.readCell a) :
    a = c ∧ (s.writeCell c v).readCell a = v ∧
      ∀ b : Coord, b.valid s.par → b ≠ a → (s.writeCell c v).readCell b = s.readCell b := by
  obtain rfl : a = c := by
    by_contra hac
    exact hne (State.readCell_writeCell_other v hc ha hac)
  exact ⟨rfl, State.readCell_writeCell_same a v hwf, fun b hb hba => State.readCell_writeCell_other v hc hb hba⟩

/-- The load port leaves the grid or writes the cell that its wires name. -/
theorem loadEdge_cases (s : State) :
    s.loadEdge = s ∨ s.pins.ldWe = true ∧ Coord.valid s.par ⟨s.pins.ldRow, s.pins.ldCol⟩ ∧
      s.loadEdge = s.writeCell ⟨s.pins.ldRow, s.pins.ldCol⟩ s.pins.ldData := by
  unfold State.loadEdge State.loadCell
  split_ifs with hwe hv
  · exact .inr ⟨hwe, hv, rfl⟩
  · exact .inl rfl
  · exact .inl rfl

/-- An edge in IDLE leaves the grid as it is or as the load port does. -/
theorem idleEdge_grid (s : State) : s.idleEdge.grid = s.grid ∨ s.idleEdge.grid = s.loadEdge.grid := by
  by_cases hb : s.busy = 0
  · exact .inr (by rw [idleEdge_ready hb])
  · exact .inl (by rw [idleEdge_busy hb])

/-- An instruction leaves the grid or is a `p` that writes the popped coordinate. -/
theorem exec_grid_cases (h : exec i s = .next t) :
    t.grid = s.grid ∨ i = .put ∧ ∃ r c v rest a, s.stack = r :: c :: v :: rest ∧ gridCoord s.par r c = some a ∧
      t = (s.withStack rest).writeCell a (low8 v) := by
  cases exec_ends h with
  | put a v r c rest hs ha hi => exact .inr ⟨hi, r, c, v, rest, a, hs, ha, rfl⟩
  | _ => exact .inl rfl

/-- A byte that writes the grid is that of `p`, outside string mode. -/
theorem dispatch_grid_cases (h : dispatch op s = .next t) :
    t.par = s.par ∧ t.grid = s.grid ∨ s.sm = false ∧ op = encode .put ∧ ∃ r c v rest a, s.stack = r :: c :: v :: rest ∧
      gridCoord s.par r c = some a ∧ t = (s.withStack rest).writeCell a (low8 v) := by
  rcases dispatch_cases h with ⟨-, -, rfl⟩ | ⟨-, -, -, rfl⟩ | ⟨-, -, -, rfl⟩ | ⟨-, -, rfl⟩ | ⟨i, hs, hd, h⟩
  · exact .inl ⟨rfl, rfl⟩
  · exact .inl ⟨rfl, rfl⟩
  · exact .inl ⟨rfl, rfl⟩
  · exact .inl ⟨rfl, rfl⟩
  · rcases exec_grid_cases h with hg | ⟨rfl, hput⟩
    · exact .inl ⟨exec_par h, hg⟩
    · exact .inr ⟨hs, (encode_of_decode hd).symm, hput⟩

theorem transfer_grid (h : transfer q s = .next t) : t.par = s.par ∧ t.grid = s.grid := by
  rcases transfer_cases h with rfl | ⟨_, -, -, rfl⟩ | ⟨-, -, -, rfl⟩ | ⟨_, _, -, -, rfl⟩ <;> exact ⟨rfl, rfl⟩

/-- Settles O56: an edge that changes a cell is a load-port write in IDLE or a `p`, and each is one write of the grid. -/
theorem gridChangesOneCellAtATime : Obligations.GridChangesOneCellAtATime := by
  intro s t a hinv h hrst ha hne
  obtain ⟨u, hu, rfl⟩ := step_cases h
  rcases edge_cases hu with ⟨hrst', -⟩ | ⟨-, ⟨hr, rfl⟩ | ⟨q, hr, hq, hu⟩ | ⟨hr, hp, hu⟩ | ⟨-, rfl⟩⟩
  · cases hrst.symm.trans hrst'
  · have hpar : s.idleEdge.par = s.par := by rw [(idleEdge_cases hr).2]
    rcases idleEdge_grid s with hg | hg
    · exact absurd (readCell_congr hpar hg a) hne
    · rcases loadEdge_cases s with hload | ⟨hwe, hv, hload⟩
      · exact absurd (readCell_congr hpar (hg.trans (by rw [hload])) a) hne
      · have hread := readCell_congr (s := s.writeCell _ s.pins.ldData) hpar (hload ▸ hg)
        simp only [State.withEnv_readCell, hread] at hne ⊢
        obtain ⟨haeq, hdata, hothers⟩ := writeCell_changes hinv.grid hv ha hne
        exact ⟨.inl ⟨hr, hwe, haeq, hdata⟩, hothers⟩
  · obtain ⟨hpar, hg⟩ := transfer_grid hu
    exact absurd (readCell_congr hpar hg a) hne
  · rcases dispatch_grid_cases (coreStep_cases hu).2 with ⟨hpar, hg⟩ | ⟨hs, hop, r, c, v, rest, b, hst, hb, rfl⟩
    · exact absurd (readCell_congr hpar hg a) hne
    · obtain ⟨rfl, hdata, hothers⟩ := writeCell_changes hinv.grid (gridCoord_valid hb) ha hne
      exact ⟨.inr ⟨⟨hrst, hr, hp⟩, hs, hop, r, c, v, rest, hst, hb, gridCoord_eq hb, hdata⟩, hothers⟩
  · exact absurd rfl hne

end Sys2Proof.Machine
end

section
/-! PROOFS. What an edge reads of the host (10_state.md R20, R33; 43_io.md R160, R161): the wires of its run state, of the
request it drives and of the draw, and nothing of the record of what the run has exchanged with the port. -/

namespace Sys2Proof.Machine

variable {i : Instr} {s t : State} {q : Request} {op : Byte} {g : State → Result}

/-! ### The host's side and the record, replaced -/

/-- The record and the host's side replaced. -/
def State.withHost (s : State) (o : List OutWord) (k : List Answer) (e : Env) : State :=
  { s with out := o, took := k, env := e }

/-- A result with a change of its next state. -/
def mapNext (f : State → State) : Result → Result
  | .next s => .next (f s)
  | .fault r => .fault r
  | .refused r => .refused r

/-- g neither reads nor writes the record and the host's side. -/
def IgnoresHost (g : State → Result) (s : State) : Prop :=
  ∀ o k e, g (s.withHost o k e) = mapNext (fun t => t.withHost o k e) (g s)

/-- Of the hosts with the property W, g reads nothing more, and it writes the record and the host's side as functions of what
they were; a host with a scheduled edge it leaves as it is. -/
def ReadsHost (W : Env → Prop) (g : State → Result) (s : State) : Prop :=
  ∃ (fo : List OutWord → List OutWord) (fk : List Answer → List Answer) (fe : Env → Env),
    (∀ e, e.edges ≠ [] → fe e = e) ∧
      ∀ o k e, W e → g (s.withHost o k e) = mapNext (fun t => t.withHost (fo o) (fk k) (fe e)) (g s)

theorem IgnoresHost.readsHost {W : Env → Prop} (h : IgnoresHost g s) : ReadsHost W g s :=
  ⟨id, id, id, fun _ _ => rfl, fun o k e _ => h o k e⟩

theorem Env.afterAnswer_of_scheduled {e : Env} (h : e.edges ≠ []) : e.afterAnswer = e := by
  obtain ⟨p, l, hl⟩ := List.exists_cons_of_ne_nil h
  simp [Env.afterAnswer, hl]

theorem Env.afterDraw_of_scheduled {e : Env} (h : e.edges ≠ []) : e.afterDraw = e := by
  obtain ⟨p, l, hl⟩ := List.exists_cons_of_ne_nil h
  simp [Env.afterDraw, hl]

/-! ### The shared operations -/

section
variable {o : List OutWord} {k : List Answer} {e : Env}

theorem mapNext_ite {c : Prop} [Decidable c] {f : State → State} {a b a' b' : Result} (ha : a' = mapNext f a)
    (hb : b' = mapNext f b) : (if c then a' else b') = mapNext f (if c then a else b) := by
  split
  · exact ha
  · exact hb

theorem roomFor_withHost {popped pushed : Nat} {r r' : Result} (h : r' = mapNext (fun t => t.withHost o k e) r) :
    roomFor popped pushed op (s.withHost o k e) r' = mapNext (fun t => t.withHost o k e) (roomFor popped pushed op s r) :=
  mapNext_ite rfl h

theorem oneOperand_withHost {f f' : Word → List Word → Result}
    (h : ∀ x rest, f' x rest = mapNext (fun t => t.withHost o k e) (f x rest)) :
    oneOperand i (s.withHost o k e) f' = mapNext (fun t => t.withHost o k e) (oneOperand i s f) := by
  rcases Nat.lt_or_ge s.depth 1 with hshort | hneed
  · rw [oneOperand_short hshort, oneOperand_short (s := s.withHost o k e) hshort]
    rfl
  · obtain ⟨x, rest, hs⟩ := stack_of_one hneed
    rw [oneOperand_cons hs, oneOperand_cons (s := s.withHost o k e) hs]
    exact h x rest

theorem twoOperands_withHost {f f' : Word → Word → List Word → Result}
    (h : ∀ y x rest, f' y x rest = mapNext (fun t => t.withHost o k e) (f y x rest)) :
    twoOperands i (s.withHost o k e) f' = mapNext (fun t => t.withHost o k e) (twoOperands i s f) := by
  rcases Nat.lt_or_ge s.depth 2 with hshort | hneed
  · rw [twoOperands_short hshort, twoOperands_short (s := s.withHost o k e) hshort]
    rfl
  · obtain ⟨y, x, rest, hs⟩ := stack_of_two hneed
    rw [twoOperands_cons hs, twoOperands_cons (s := s.withHost o k e) hs]
    exact h y x rest

theorem threeOperands_withHost {f f' : Word → Word → Word → List Word → Result}
    (h : ∀ a b c rest, f' a b c rest = mapNext (fun t => t.withHost o k e) (f a b c rest)) :
    threeOperands i (s.withHost o k e) f' = mapNext (fun t => t.withHost o k e) (threeOperands i s f) := by
  rcases Nat.lt_or_ge s.depth 3 with hshort | hneed
  · rw [threeOperands_short hshort, threeOperands_short (s := s.withHost o k e) hshort]
    rfl
  · obtain ⟨a, b, c, rest, hs⟩ := stack_of_three hneed
    rw [threeOperands_cons hs, threeOperands_cons (s := s.withHost o k e) hs]
    exact h a b c rest

end

/-! ### An instruction that makes no request -/

/-- Without a request, an instruction other than `?` ignores the host. -/
theorem exec_ignoresHost (hn : issued i s = none) (hi : i ≠ .rand) : IgnoresHost (exec i) s := by
  intro o k e
  cases i
  case rand => exact absurd rfl hi
  case nop | str | bridge | left | right | up | down | halt => rfl
  case push0 | push1 | push2 | push3 | push4 | push5 | push6 | push7 | push8 | push9 => exact roomFor_withHost rfl
  case not | drop | hif | vif => exact oneOperand_withHost fun _ _ => rfl
  case dup => exact oneOperand_withHost fun _ _ => roomFor_withHost rfl
  case add | sub | mul | gt | swap => exact twoOperands_withHost fun _ _ _ => rfl
  case div | mod => exact twoOperands_withHost fun _ _ _ => mapNext_ite rfl rfl
  case get =>
    refine twoOperands_withHost fun r c rest => ?_
    rw [show (s.withHost o k e).par = s.par from rfl]
    cases gridCoord s.par r c <;> rfl
  case put =>
    refine threeOperands_withHost fun r c v rest => ?_
    rw [show (s.withHost o k e).par = s.par from rfl]
    cases gridCoord s.par r c
    · rfl
    · exact mapNext_ite rfl rfl
  case innum =>
    have hfull : s.par.stackDepth ≤ s.depth := by simpa using hn
    rw [exec_innum_of_full hfull, exec_innum_of_full (s := s.withHost o k e) hfull]
    rfl
  case inchr =>
    have hfull : s.par.stackDepth ≤ s.depth := by simpa using hn
    rw [exec_inchr_of_full hfull, exec_inchr_of_full (s := s.withHost o k e) hfull]
    rfl
  case outnum =>
    have hs : s.stack = [] := by simpa using hn
    rw [exec_outnum, exec_outnum, oneOperand_nil hs, oneOperand_nil (s := s.withHost o k e) hs]
    rfl
  case outchr =>
    have hs : s.stack = [] := by simpa using hn
    rw [exec_outchr, exec_outchr, oneOperand_nil hs, oneOperand_nil (s := s.withHost o k e) hs]
    rfl

/-- Without a request an instruction reads of the host the draw alone. -/
theorem exec_readsHost (hn : issued i s = none) : ReadsHost (fun e => e.pins.rnd = s.pins.rnd) (exec i) s := by
  by_cases hi : i = .rand
  · subst hi
    refine ⟨id, id, Env.afterDraw, fun _ => Env.afterDraw_of_scheduled, fun o k e hrnd => ?_⟩
    rw [exec_rand, exec_rand, show (s.withHost o k e).pins.rnd = s.pins.rnd from hrnd]
    rfl
  · exact (exec_ignoresHost hn hi).readsHost

/-! ### A transfer -/

/-- The wires that answer the request, if it is a read, or accept it, if it is a write, are the same. -/
def Request.SameWires (q : Request) (p p' : Pins) : Prop :=
  (q.inReq = true → p.inValid = p'.inValid ∧ p.inErr = p'.inErr ∧ p.inData = p'.inData) ∧
    (q.outValid = true → p.outReady = p'.outReady)

theorem transfer_readsHost (q : Request) (s : State) :
    ReadsHost (fun e => q.SameWires e.pins s.pins) (transfer q) s := by
  cases q with
  | read kind =>
    cases hvalid : s.pins.inValid with
    | false =>
      refine ⟨id, id, id, fun _ _ => rfl, fun o k e hw => ?_⟩
      obtain ⟨hvalid', -, -⟩ := hw.1 rfl
      rw [transfer_read_waits hvalid, transfer_read_waits (s := s.withHost o k e) (hvalid'.trans hvalid)]
      rfl
    | true =>
      refine ⟨id, (· ++ [s.wireAnswer]), Env.afterAnswer, fun _ => Env.afterAnswer_of_scheduled,
        fun o k e hw => ?_⟩
      obtain ⟨hvalid', herr', hdata'⟩ := hw.1 rfl
      have hanswer : (s.withHost o k e).wireAnswer = s.wireAnswer := congrArg₂ Answer.mk herr' hdata'
      by_cases hk : kind = .char ∨ s.pins.inErr = false
      · rw [transfer_read_answered hvalid hk,
          transfer_read_answered (s := s.withHost o k e) (hvalid'.trans hvalid) (hk.imp_right herr'.trans), hanswer,
          show (s.withHost o k e).pins.inData = s.pins.inData from hdata']
        rfl
      · obtain ⟨hkind, herr⟩ := parseError_of_not_pushed hk
        rw [hkind, transfer_read_parseError hvalid herr,
          transfer_read_parseError (s := s.withHost o k e) (hvalid'.trans hvalid) (herr'.trans herr), hanswer]
        rfl
  | write kind v =>
    cases hready : s.pins.outReady with
    | false =>
      refine ⟨id, id, id, fun _ _ => rfl, fun o k e hw => ?_⟩
      have hready' := hw.2 rfl
      rw [transfer_write_waits hready, transfer_write_waits (s := s.withHost o k e) (hready'.trans hready)]
      rfl
    | true =>
      refine ⟨(· ++ [⟨kind, v⟩]), id, id, fun _ _ => rfl, fun o k e hw => ?_⟩
      have hready' := hw.2 rfl
      rw [transfer_write_accepted hready, transfer_write_accepted (s := s.withHost o k e) (hready'.trans hready)]
      rfl

/-! ### A step of the core -/

theorem stringCell_ignoresHost (op : Byte) (s : State) : IgnoresHost (stringCell op) s :=
  fun _ _ _ => mapNext_ite rfl (roomFor_withHost rfl)

theorem execute_readsHost (hn : ∀ i, decode op = some i → issued i s = none) :
    ReadsHost (fun e => e.pins.rnd = s.pins.rnd) (execute op) s := by
  unfold execute
  cases hd : decode op with
  | none => exact IgnoresHost.readsHost fun _ _ _ => rfl
  | some i => exact exec_readsHost (hn i hd)

theorem dispatch_readsHost (hn : s.sm = false → ∀ i, decode op = some i → issued i s = none) :
    ReadsHost (fun e => e.pins.rnd = s.pins.rnd) (dispatch op) s := by
  cases hs : s.sm with
  | true =>
    have hstring : ∀ {u : State}, u.sm = true → dispatch op u = stringCell op u := fun hu => if_pos hu
    refine IgnoresHost.readsHost fun o k e => ?_
    rw [hstring hs, hstring (u := s.withHost o k e) hs]
    exact stringCell_ignoresHost op s o k e
  | false =>
    have hexecute : ∀ {u : State}, u.sm = false → dispatch op u = execute op u := fun hu => if_neg (by simp [hu])
    obtain ⟨fo, fk, fe, hfe, hread⟩ := execute_readsHost (hn hs)
    refine ⟨fo, fk, fe, hfe, fun o k e hrnd => ?_⟩
    rw [hexecute hs, hexecute (u := s.withHost o k e) hs]
    exact hread o k e hrnd

/-- A step that makes a request is its transfer, in the state whose pc has advanced. -/
theorem coreStep_of_stepRequest (h : s.stepRequest = some q) :
    coreStep s = transfer q (s.withPc (advance s.par s.dir s.pc)) := by
  have hs : s.sm = false := by
    by_contra hs
    rw [stepRequest_of_string (by simpa using hs)] at h
    cases h
  by_cases hv : (advance s.par s.dir s.pc).valid s.par
  case neg =>
    rw [State.stepRequest, if_neg (by simp [hs]), State.advanced_eq, State.fetch, State.withPc_pc, State.withPc_par,
      if_neg hv] at h
    cases h
  case pos =>
    rw [stepRequest_of_byte hs hv] at h
    obtain ⟨i, hd, hi⟩ := Option.bind_eq_some_iff.1 h
    rw [coreStep_of_valid hv, dispatch, State.withPc_sm, if_neg (by simp [hs]), execute, hd]
    exact exec_of_issued hi

theorem coreStep_of_not_valid (hv : ¬(advance s.par s.dir s.pc).valid s.par) :
    coreStep s = .fault (.noSuchCell (advance s.par s.dir s.pc)) := by
  rw [coreStep, fetchAndDispatch, State.advanced_eq, State.fetch, State.withPc_pc, State.withPc_par, if_neg hv]

theorem coreStep_readsHost (s : State) :
    ReadsHost (fun e => e.pins.rnd = s.pins.rnd ∧ ∀ q, s.stepRequest = some q → q.SameWires e.pins s.pins) coreStep s := by
  cases hq : s.stepRequest with
  | some q =>
    obtain ⟨fo, fk, fe, hfe, hread⟩ := transfer_readsHost q (s.withPc (advance s.par s.dir s.pc))
    refine ⟨fo, fk, fe, hfe, fun o k e ⟨_, hwires⟩ => ?_⟩
    rw [coreStep_of_stepRequest hq, coreStep_of_stepRequest (s := s.withHost o k e) hq]
    exact hread o k e (hwires q rfl)
  | none =>
    by_cases hv : (advance s.par s.dir s.pc).valid s.par
    case neg =>
      refine IgnoresHost.readsHost fun o k e => ?_
      rw [coreStep_of_not_valid hv, coreStep_of_not_valid (s := s.withHost o k e) hv]
      rfl
    case pos =>
      have hno : s.sm = false → ∀ i, decode (s.readCell (advance s.par s.dir s.pc)) = some i → issued i s = none := by
        intro hs i hd
        rwa [stepRequest_of_byte hs hv, hd] at hq
      obtain ⟨fo, fk, fe, hfe, hread⟩ := dispatch_readsHost (s := s.withPc (advance s.par s.dir s.pc)) hno
      refine ⟨fo, fk, fe, hfe, fun o k e ⟨hrnd, _⟩ => ?_⟩
      rw [coreStep_of_valid hv, coreStep_of_valid (s := s.withHost o k e) hv]
      exact hread o k e hrnd

/-! ### An edge -/

/-- The wires that an edge of s reads are as in p. -/
structure State.SameWires (s : State) (p : Pins) : Prop where
  rst : p.rst = s.pins.rst
  rnd : p.rnd = s.pins.rnd
  start : s.run = .idle → p.start = s.pins.start
  load : s.run = .idle → p.ldWe = s.pins.ldWe ∧ p.ldRow = s.pins.ldRow ∧ p.ldCol = s.pins.ldCol ∧
    p.ldData = s.pins.ldData
  request : ∀ q, s.request = some q → q.SameWires p s.pins

theorem loadEdge_withHost {o : List OutWord} {k : List Answer} {e : Env} (hwe : e.pins.ldWe = s.pins.ldWe)
    (hrow : e.pins.ldRow = s.pins.ldRow) (hcol : e.pins.ldCol = s.pins.ldCol) (hdata : e.pins.ldData = s.pins.ldData) :
    (s.withHost o k e).loadEdge = s.loadEdge.withHost o k e := by
  have hpins : (s.withHost o k e).pins = e.pins := rfl
  unfold State.loadEdge State.loadCell
  rw [hpins, hwe, hrow, hcol, hdata, show (s.withHost o k e).par = s.par from rfl]
  split_ifs <;> rfl

theorem idleEdge_withHost {o : List OutWord} {k : List Answer} {e : Env} (hr : s.run = .idle) (hw : s.SameWires e.pins) :
    (s.withHost o k e).idleEdge = s.idleEdge.withHost o k e := by
  by_cases hb : s.busy = 0
  case neg => rw [idleEdge_busy hb, idleEdge_busy (s := s.withHost o k e) hb]; rfl
  case pos =>
    obtain ⟨hwe, hrow, hcol, hdata⟩ := hw.load hr
    rw [idleEdge_ready hb, idleEdge_ready (s := s.withHost o k e) hb, loadEdge_withHost hwe hrow hcol hdata,
      show (s.withHost o k e).pins.start = s.pins.start from hw.start hr]
    rfl

/-- An edge reads of the host the wires of its run state, its request and its draw, and of the record nothing. -/
theorem edge_readsHost (s : State) : ReadsHost (fun e => s.SameWires e.pins) edge s := by
  cases hrst : s.pins.rst with
  | true =>
    refine ⟨fun _ => [], fun _ => [], id, fun _ _ => rfl, fun o k e hw => ?_⟩
    rw [edge_of_rst hrst, edge_of_rst (s := s.withHost o k e) (hw.rst.trans hrst)]
    rfl
  | false =>
    cases hr : s.run with
    | idle =>
      refine ⟨id, id, id, fun _ _ => rfl, fun o k e hw => ?_⟩
      rw [edge_of_idle hrst hr, edge_of_idle (s := s.withHost o k e) (hw.rst.trans hrst) hr, idleEdge_withHost hr hw]
      rfl
    | halted | faulted =>
      have hended : s.run = .faulted ∨ s.run = .halted := by simp [hr]
      refine ⟨id, id, id, fun _ _ => rfl, fun o k e hw => ?_⟩
      rw [edge_of_ended hrst hended, edge_of_ended (s := s.withHost o k e) (hw.rst.trans hrst) hended]
      rfl
    | run =>
      cases hp : s.pending with
      | some q =>
        obtain ⟨fo, fk, fe, hfe, hread⟩ := transfer_readsHost q s
        refine ⟨fo, fk, fe, hfe, fun o k e hw => ?_⟩
        rw [edge_of_pending hrst hr hp, edge_of_pending (s := s.withHost o k e) (hw.rst.trans hrst) hr hp]
        exact hread o k e (hw.request q (request_of_pending hr hp))
      | none =>
        obtain ⟨fo, fk, fe, hfe, hread⟩ := coreStep_readsHost s
        refine ⟨fo, fk, fe, hfe, fun o k e hw => ?_⟩
        rw [edge_of_stepping ⟨hrst, hr, hp⟩, edge_of_stepping (s := s.withHost o k e) ⟨hw.rst.trans hrst, hr, hp⟩]
        exact hread o k e ⟨hw.rnd, fun q hq => hw.request q ((request_of_running hr hp).trans hq)⟩

theorem Request.SameWires.refl (q : Request) (p : Pins) : q.SameWires p p := ⟨fun _ => ⟨rfl, rfl, rfl⟩, fun _ => rfl⟩

theorem State.SameWires.refl (s : State) : s.SameWires s.pins where
  rst := rfl
  rnd := rfl
  start _ := rfl
  load _ := ⟨rfl, rfl, rfl, rfl⟩
  request q _ := .refl q s.pins

/-! ### The record influences nothing -/

/-- Settles O57: the edge maps the record by functions that do not look at the rest, and leaves the host's side as it would
have with the other record. -/
theorem portRecordDoesNotInfluence : Obligations.PortRecordDoesNotInfluence := by
  intro s o k t h
  obtain ⟨u, hu, rfl⟩ := step_cases h
  obtain ⟨fo, fk, fe, -, hread⟩ := edge_readsHost s
  have hown := hread s.out s.took s.env (.refl s)
  have hother := hread o k s.env (.refl s)
  rw [show s.withHost s.out s.took s.env = s from rfl, hu] at hown
  rw [hu] at hother
  have henv : u.env = fe s.env := congrArg State.env (Host.Outcome.next.inj hown)
  refine ⟨_, step_of_edge hother, ?_⟩
  rw [← henv]
  rfl

/-! ### Wires that an edge does not read -/

theorem endEdge_mapNext (f : State → State) : ∀ r, endEdge (mapNext f r) = mapNext (fun u => (f u).afterEdge) r
  | .next _ | .fault _ | .refused _ => rfl

/-- Where the wires of the scheduled edge differ in those only that the edge does not read, the step is the same. -/
theorem step_of_sameWires {p p' : Pins} {l : List Pins} (hl : s.env.edges = p :: l)
    (hw : s.SameWires p') :
    step { s with env := { s.env with edges := p' :: l } } = step s := by
  obtain ⟨fo, fk, fe, hfe, hread⟩ := edge_readsHost s
  have hown := hread s.out s.took s.env (.refl s)
  have hother := hread s.out s.took { s.env with edges := p' :: l } hw
  rw [hfe _ (by simp [hl])] at hown
  rw [hfe _ (List.cons_ne_nil p' l)] at hother
  have hafter : ∀ u : State, (u.withHost (fo s.out) (fk s.took) { s.env with edges := p' :: l }).afterEdge =
      (u.withHost (fo s.out) (fk s.took) s.env).afterEdge := by
    intro u
    simp [State.withHost, State.withEnv, Env.afterEdge, hl]
  calc endEdge (edge (s.withHost s.out s.took { s.env with edges := p' :: l }))
      = mapNext (fun u => (u.withHost (fo s.out) (fk s.took) { s.env with edges := p' :: l }).afterEdge) (edge s) := by
        rw [hother, endEdge_mapNext]
    _ = mapNext (fun u => (u.withHost (fo s.out) (fk s.took) s.env).afterEdge) (edge s) := by simp only [hafter]
    _ = endEdge (edge s) := by rw [← endEdge_mapNext, ← hown]; rfl

end Sys2Proof.Machine
end

section
/-! PROOFS. The wires of the I/O Port (10_state.md R36, 43_io.md R160, R161): what is shown, what is met, and what makes no
difference. -/

namespace Sys2Proof.Machine

variable {i : Instr} {s t : State} {q : Request} {b : Byte} {k : IoKind} {v : Word} {p p' : Pins} {l : List Pins}

/-! ### The request of the coming step -/

theorem request_of_stepping (h : s.Stepping) (hs : s.sm = false) (hv : (advance s.par s.dir s.pc).valid s.par) :
    s.request = (decode (s.readCell (advance s.par s.dir s.pc))).bind fun i => issued i s :=
  (request_of_running h.running h.noRequest).trans (stepRequest_of_byte hs hv)

/-- An instruction that is none of the four has another byte than theirs. -/
theorem issued_of_other_byte (hb : b ∉ ([0x26, 0x7E, 0x2E, 0x2C] : List Byte)) (hd : decode b = some i) :
    issued i s = none := by
  refine issued_of_no_io fun hi => hb ?_
  rw [← encode_of_decode hd]
  exact List.mem_map_of_mem (f := encode) (l := [.innum, .inchr, .outnum, .outchr]) hi

/-- Settles O59: the request is the one of the instruction under the advanced pc, and the wires are those of the request. -/
theorem requestShowsFromItsIssuingCycle : Obligations.RequestShowsFromItsIssuingCycle := by
  refine ⟨fun s h hs hv => ?stepping, fun s h hs => ?string, fun s hr => wires_of_none (request_of_not_running hr)⟩
  case string => exact wires_of_none ((request_of_running h.running h.noRequest).trans (stepRequest_of_string hs))
  case stepping =>
    intro b
    have hreq : ∀ i, b = encode i → s.request = issued i s := by
      rintro i hb
      rw [request_of_stepping h hs hv, show s.readCell _ = encode i from hb, decode_encode, Option.bind_some]
    refine ⟨fun hb hroom => ?innum, fun hb hroom => ?inchr, fun v rest hb hst => ?outnum,
      fun v rest hb hst => ?outchr, ?none⟩
    case innum => exact wires_of_read ((hreq .innum hb).trans (if_pos hroom))
    case inchr => exact wires_of_read ((hreq .inchr hb).trans (if_pos hroom))
    case outnum => exact wires_of_write ((hreq .outnum hb).trans (by rw [issued_outnum, hst]; rfl))
    case outchr =>
      have hissued : issued .outchr s = some (.write .char (v &&& 0xFF)) := by
        rw [issued_outchr, hst, ← zext_low8]
        rfl
      exact wires_of_write ((hreq .outchr hb).trans hissued)
    case none =>
      rintro (hb | ⟨hb | hb, hfull⟩ | ⟨hb | hb, hst⟩)
      · refine wires_of_none ((request_of_stepping h hs hv).trans (Option.bind_eq_none_iff.2 fun i hd => ?_))
        exact issued_of_other_byte hb hd
      · exact wires_of_none ((hreq .innum hb).trans (if_neg (Nat.not_lt.2 hfull)))
      · exact wires_of_none ((hreq .inchr hb).trans (if_neg (Nat.not_lt.2 hfull)))
      · exact wires_of_none ((hreq .outnum hb).trans (by rw [issued_outnum, hst]; rfl))
      · exact wires_of_none ((hreq .outchr hb).trans (by rw [issued_outchr, hst]; rfl))

/-! ### What an edge does with the request that is shown -/

theorem transfer_read_met (hvalid : s.pins.inValid = true) (h : transfer (.read k) s = .next t) :
    t.took = s.took ++ [s.wireAnswer] ∧ t.out = s.out := by
  by_cases hk : k = .char ∨ s.pins.inErr = false
  · cases h.symm.trans (transfer_read_answered hvalid hk)
    exact ⟨rfl, rfl⟩
  · obtain ⟨rfl, herr⟩ := parseError_of_not_pushed hk
    cases h.symm.trans (transfer_read_parseError hvalid herr)
    exact ⟨rfl, rfl⟩

/-- Without a reset an edge with a request is its transfer, in a state with the same wires and the same record. -/
theorem edge_of_request (hq : s.request = some q) (hrst : s.pins.rst = false) (h : edge s = .next t) :
    ∃ u : State, u.pins = s.pins ∧ u.took = s.took ∧ u.out = s.out ∧ u.run = .run ∧ transfer q u = .next t := by
  rcases edge_cases_by_request h hrst with ⟨q', u, hq', hr, hu, ht⟩ | ⟨hnone, -⟩
  · cases hq.symm.trans hq'
    rcases hu with rfl | rfl
    · exact ⟨u, rfl, rfl, rfl, hr, ht⟩
    · exact ⟨s.withPc (advance s.par s.dir s.pc), rfl, rfl, rfl, hr, ht⟩
  · cases hq.symm.trans hnone

theorem edge_without_request (hq : s.request = none) (hrst : s.pins.rst = false) (h : edge s = .next t) :
    t.took = s.took ∧ t.out = s.out := by
  rcases edge_cases_by_request h hrst with ⟨q', u, hq', -⟩ | ⟨-, hrecord⟩
  · cases hq.symm.trans hq'
  · exact hrecord

/-- A word is shown by a write that offers it. -/
theorem request_of_outData (h : s.outData = some v) : ∃ k, s.request = some (.write k v) := by
  obtain ⟨q, hq, hv⟩ := Option.bind_eq_some_iff.1 h
  cases q with
  | read => cases hv
  | write k w => cases hv; exact ⟨k, hq⟩

theorem IoKind.code_inj {k k' : IoKind} (h : k.code = k'.code) : k = k' := by
  revert h
  cases k <;> cases k' <;> decide

/-- At an edge with a read shown, its answer is taken exactly if there is one, and else it waits. -/
theorem edge_of_read (hq : s.request = some (.read k)) (hrst : s.pins.rst = false) (h : edge s = .next t) :
    t.out = s.out ∧ (s.pins.inValid = true → t.took = s.took ++ [s.wireAnswer]) ∧
      (s.pins.inValid = false → t.took = s.took ∧ t.request = some (.read k)) := by
  obtain ⟨u, hpins, htook, hout, hr, ht⟩ := edge_of_request hq hrst h
  have hanswer : u.wireAnswer = s.wireAnswer := by rw [State.wireAnswer, hpins, State.wireAnswer]
  cases hvalid : s.pins.inValid with
  | true =>
    obtain ⟨htook', hout'⟩ := transfer_read_met ((congrArg _ hpins).trans hvalid) ht
    exact ⟨hout'.trans hout, fun _ => by rw [htook', htook, hanswer], nofun⟩
  | false =>
    cases ht.symm.trans (transfer_read_waits ((congrArg _ hpins).trans hvalid))
    exact ⟨hout, nofun, fun _ => ⟨htook, request_of_pending hr rfl⟩⟩

/-- At an edge with a write shown, its word is transferred exactly if the port accepts, and else it waits. -/
theorem edge_of_write (hq : s.request = some (.write k v)) (hrst : s.pins.rst = false) (h : edge s = .next t) :
    t.took = s.took ∧ (s.pins.outReady = true → t.out = s.out ++ [⟨k, v⟩]) ∧
      (s.pins.outReady = false → t.out = s.out ∧ t.request = some (.write k v)) := by
  obtain ⟨u, hpins, htook, hout, hr, ht⟩ := edge_of_request hq hrst h
  cases hready : s.pins.outReady with
  | true =>
    cases ht.symm.trans (transfer_write_accepted ((congrArg _ hpins).trans hready))
    exact ⟨htook, fun _ => congrArg (· ++ _) hout, nofun⟩
  | false =>
    cases ht.symm.trans (transfer_write_waits ((congrArg _ hpins).trans hready))
    exact ⟨htook, nofun, fun _ => ⟨hout, request_of_pending hr rfl⟩⟩

/-! ### The port acts on a shown request only -/

theorem pins_of_scheduled (hl : s.env.edges = p :: l) : s.pins = p := by rw [State.pins, Env.pins, hl]

/-- The wires that an edge reads are those of its own schedule. -/
theorem sameWires_of_scheduled (hl : s.env.edges = p :: l) : s.SameWires p := pins_of_scheduled hl ▸ .refl s

/-- Settles O60: with no read shown the wires of an answer are not read, with no write shown the one of an acceptance; and
the transfer of the shown request is made if it is met, and waits if it is not. -/
theorem portActsOnAShownRequestOnly : Obligations.PortActsOnAShownRequestOnly := by
  refine ⟨fun s p l v e d hl hin => ?answer, fun s p l r hl hout => ?acceptance, fun s t h hrst => ?shown⟩
  case answer =>
    refine step_of_sameWires hl { sameWires_of_scheduled hl with request := fun q hq => ?_ }
    refine ⟨fun hread => ?_, ((sameWires_of_scheduled hl).request q hq).2⟩
    rw [State.inReq, hq, Option.any_some, hread] at hin
    cases hin
  case acceptance =>
    refine step_of_sameWires hl { sameWires_of_scheduled hl with request := fun q hq => ?_ }
    refine ⟨((sameWires_of_scheduled hl).request q hq).1, fun hwrite => ?_⟩
    rw [State.outValid, hq, Option.any_some, hwrite] at hout
    cases hout
  case shown =>
    obtain ⟨u, hu, rfl⟩ := step_cases h
    cases hq : s.request with
    | none =>
      obtain ⟨hin, hout⟩ := wires_of_none hq
      obtain ⟨htook, hsent⟩ := edge_without_request hq hrst hu
      refine ⟨fun _ => htook, fun hreq => ?_, fun _ => hsent, fun k v _ hdata => ?_, fun hreq => ?_, fun hreq => ?_⟩
      · cases hin.symm.trans hreq
      · obtain ⟨k', hq'⟩ := request_of_outData hdata
        cases hq.symm.trans hq'
      · cases hin.symm.trans hreq
      · cases hout.symm.trans hreq
    | some q =>
      cases q with
      | read k =>
        obtain ⟨hin, hkind, hout⟩ := wires_of_read hq
        obtain ⟨hsent, hmet, hwaits⟩ := edge_of_read hq hrst hu
        refine ⟨fun hno => ?_, fun _ => hmet, fun _ => hsent, fun k' v _ hdata => ?_, fun _ hno => ?_, fun hreq => ?_⟩
        · exact (hwaits (hno.resolve_left fun h => by cases hin.symm.trans h)).1
        · obtain ⟨k'', hq'⟩ := request_of_outData hdata
          cases hq.symm.trans hq'
        · obtain ⟨hin', hkind', -⟩ := wires_of_read (hwaits hno).2
          exact ⟨hin', hkind'.trans hkind.symm⟩
        · cases hout.symm.trans hreq
      | write k v =>
        obtain ⟨hout, hkind, hdata, hin⟩ := wires_of_write hq
        obtain ⟨htook, hmet, hwaits⟩ := edge_of_write hq hrst hu
        refine ⟨fun _ => htook, fun hreq => ?_, fun hno => ?_, fun k' v' hkind' hdata' hready => ?_, fun hreq => ?_,
          fun _ hno => ?_⟩
        · cases hin.symm.trans hreq
        · exact (hwaits (hno.resolve_left fun h => by cases hout.symm.trans h)).1
        · obtain rfl := IoKind.code_inj (Option.some.inj (hkind.symm.trans hkind'))
          obtain rfl := Option.some.inj (hdata.symm.trans hdata')
          exact hmet hready
        · cases hin.symm.trans hreq
        · obtain ⟨hout', hkind', hdata', -⟩ := wires_of_write (hwaits hno).2
          exact ⟨hout', hkind'.trans hkind.symm, hdata'.trans hdata.symm⟩

end Sys2Proof.Machine
end

section
/-! PROOFS. Outside RUN (70_reset_and_hazards.md R260 to R266): the load port, start and reset. -/

namespace Sys2Proof.Machine

variable {s : State}

/-! ### An edge in IDLE -/

theorem step_of_idle (hrst : s.pins.rst = false) (hr : s.run = .idle) : step s = .next s.idleEdge.afterEdge :=
  step_of_edge (edge_of_idle hrst hr)

/-- A cell of the grid after a load-port write, whose coordinate may lie outside it (70_reset_and_hazards.md R263). -/
theorem readCell_loadCell {a c : Coord} {v : Byte} (hwf : Memory.wf s.par s.grid) (ha : a.valid s.par) :
    (s.loadCell c v).readCell a = if a = c then v else s.readCell a := by
  unfold State.loadCell
  by_cases hac : a = c
  · subst hac
    rw [if_pos ha, if_pos rfl, State.readCell_writeCell_same a v hwf]
  · rw [if_neg hac]
    split
    case isTrue hc => exact State.readCell_writeCell_other v hc ha hac
    case isFalse => rfl

/-- Without `ld_we`, or with a coordinate outside the grid, the load port does nothing. -/
theorem loadEdge_of_ignored (h : s.pins.ldWe = false ∨ ¬Coord.valid s.par ⟨s.pins.ldRow, s.pins.ldCol⟩) :
    s.loadEdge = s := by
  rcases loadEdge_cases s with hsame | ⟨hwe, hv, -⟩
  · exact hsame
  · simp [hwe, hv] at h

/-! ### The obligations -/

/-- Settles O48: in IDLE the grid is that of a load-port write or the one before, and elsewhere its wires are not read. -/
theorem loadPortWritesInIdleOnly : Obligations.LoadPortWritesInIdleOnly := by
  refine ⟨fun s hwf hrst hr hb hwe => ?written, fun s hrst hr hb hignored => ?ignored, fun s p l w r c b hr hl => ?elsewhere⟩
  case written =>
    have hstep := step_of_idle hrst hr
    rw [idleEdge_ready hb] at hstep
    refine ⟨_, hstep, loadEdge_wf hwf, fun a ha => ?_⟩
    have hload : s.loadEdge = s.loadCell ⟨s.pins.ldRow, s.pins.ldCol⟩ s.pins.ldData := if_pos hwe
    rw [← readCell_loadCell hwf ha, ← hload]
    have hpar : s.loadEdge.par = s.par := by rw [loadEdge_eq]
    show Memory.read s.par.blank s.loadEdge.grid (a.key s.par) = s.loadEdge.readCell a
    rw [State.readCell, hpar]
  case ignored =>
    refine ⟨_, step_of_idle hrst hr, ?_⟩
    rw [idleEdge_ready hb, loadEdge_of_ignored hignored]
    rfl
  case elsewhere =>
    exact step_of_sameWires hl { sameWires_of_scheduled hl with load := fun hidle => absurd hidle hr }

/-- Settles O49: an edge in IDLE writes `run` and the grid alone, and from the pc and the direction of the reset the advance
wraps to (0, 0); elsewhere the wire is not read. -/
theorem startBeginsTheRun : Obligations.StartBeginsTheRun := by
  refine ⟨fun s hinv hrst hr hb => ?idle, fun s p l g hr hl => ?elsewhere⟩
  case idle =>
    obtain ⟨-, hpc, hdir, -⟩ := hinv.idle hr
    have hstep := step_of_idle hrst hr
    rw [idleEdge_ready hb] at hstep
    refine ⟨_, hstep, rfl, by rw [← hr]; rfl, ?_⟩
    show advance s.par s.dir s.pc = ⟨0, 0⟩
    rw [hdir, hpc, advance_right_of_last]
  case elsewhere =>
    exact step_of_sameWires hl { sameWires_of_scheduled hl with start := fun hidle => absurd hidle hr }

/-- Settles O46: the reset state, element by element. -/
theorem resetValues : Obligations.ResetValues :=
  ⟨⟨rfl, rfl, rfl, rfl, rfl⟩, fun _ => rfl, rfl, rfl, fun _ => rfl, rfl, rfl, rfl, rfl, rfl, rfl⟩

/-- Settles O47: an edge with `rst` answers the reset state of the same parameters and host, in which no request is driven;
while `rst_busy` is 1 an edge in IDLE counts it down. -/
theorem resetFromAnyState : Obligations.ResetFromAnyState := by
  refine ⟨fun s hrst => ?reset, fun s hrst hr hbusy => ?busy⟩
  case reset =>
    obtain ⟨hin, hout⟩ := wires_of_none (s := (State.resetWith s.par s.env).afterEdge) (request_of_not_running nofun)
    exact ⟨_, step_of_edge (edge_of_rst hrst), rfl, rfl, rfl, rfl, rfl, rfl, fun _ => rfl, rfl, hin, hout, rfl, rfl⟩
  case busy =>
    have hstep := step_of_idle hrst hr
    rw [idleEdge_busy (by simpa [State.rstBusy] using hbusy)] at hstep
    exact ⟨_, hstep, rfl⟩

end Sys2Proof.Machine
end

section
/-! PROOFS. The lines of a program text (70_reset_and_hazards.md R264): splitting at LF undoes joining by LF. -/

namespace Sys2Proof.Machine

variable {b : Byte} {l t : List Byte} {ls : List (List Byte)}

theorem splitLines_lineFeed (t : List Byte) : splitLines (lineFeed :: t) = [] :: splitLines t := if_pos rfl

theorem splitLines_cons (hb : b ≠ lineFeed) (h : splitLines t = l :: ls) : splitLines (b :: t) = (b :: l) :: ls := by
  rw [splitLines, if_neg hb, h]

/-- A text is its lines joined by LF, and they hold no LF. -/
theorem splitLines_spec : ∀ t, splitLines t ≠ [] ∧ (∀ l ∈ splitLines t, lineFeed ∉ l) ∧
    t = List.intercalate [lineFeed] (splitLines t)
  | [] => ⟨by simp [splitLines], by simp [splitLines], rfl⟩
  | b :: t => by
    obtain ⟨hne, hlf, hjoin⟩ := splitLines_spec t
    obtain ⟨l, ls, hsplit⟩ := List.exists_cons_of_ne_nil hne
    by_cases hb : b = lineFeed
    · subst hb
      rw [splitLines_lineFeed]
      refine ⟨List.cons_ne_nil _ _, List.forall_mem_cons.2 ⟨List.not_mem_nil, hlf⟩, ?_⟩
      rw [hsplit, List.intercalate_cons_cons, ← hsplit, ← hjoin]
      rfl
    · rw [splitLines_cons hb hsplit]
      rw [hsplit] at hlf hjoin
      obtain ⟨hl, hls⟩ := List.forall_mem_cons.1 hlf
      refine ⟨List.cons_ne_nil _ _, List.forall_mem_cons.2 ⟨List.not_mem_cons_of_ne_of_not_mem (Ne.symm hb) hl, hls⟩, ?_⟩
      cases ls with
      | nil => rw [hjoin, List.intercalate_singleton, List.intercalate_singleton]
      | cons l' ls => rw [hjoin, List.intercalate_cons_cons, List.intercalate_cons_cons]; rfl

/-- A line without LF is one line. -/
theorem splitLines_line : ∀ {l : List Byte}, lineFeed ∉ l → splitLines l = [l]
  | [], _ => rfl
  | _ :: _, h => splitLines_cons (Ne.symm (List.ne_of_not_mem_cons h)) (splitLines_line (List.not_mem_of_not_mem_cons h))

/-- A line without LF, ended by one, is the first line. -/
theorem splitLines_line_append (t : List Byte) : ∀ {l : List Byte}, lineFeed ∉ l →
    splitLines (l ++ lineFeed :: t) = l :: splitLines t
  | [], _ => splitLines_lineFeed t
  | _ :: _, h =>
    splitLines_cons (Ne.symm (List.ne_of_not_mem_cons h)) (splitLines_line_append t (List.not_mem_of_not_mem_cons h))

theorem splitLines_intercalate : ∀ {ls : List (List Byte)}, ls ≠ [] → (∀ l ∈ ls, lineFeed ∉ l) →
    splitLines (List.intercalate [lineFeed] ls) = ls
  | [], h, _ => absurd rfl h
  | [l], _, hlf => by rw [List.intercalate_singleton, splitLines_line (hlf l List.mem_cons_self)]
  | l :: l' :: ls, _, hlf => by
    obtain ⟨hl, hls⟩ := List.forall_mem_cons.1 hlf
    rw [List.intercalate_cons_cons, List.append_assoc, List.singleton_append, splitLines_line_append _ hl,
      splitLines_intercalate (List.cons_ne_nil l' ls) hls]

theorem stripCr_append (l : List Byte) : stripCr (l ++ [carriageReturn]) = l := by simp [stripCr]

theorem stripCr_of_no_cr (h : ∀ k, l ≠ k ++ [carriageReturn]) : stripCr l = l :=
  if_neg fun hlast => h _ (List.dropLast_append_getLast? _ hlast).symm

end Sys2Proof.Machine
end

section
/-! PROOFS. The loader's writes (70_reset_and_hazards.md R264): each cell of the grid holds the byte of the text at its row
and column, if there is one. -/

namespace Sys2Proof.Machine

variable {p : Params} {m : Memory} {c : Coord}

/-! ### Several writes of the grid -/

/-- The grid after several writes, the first one first. -/
def Memory.writeAll (p : Params) (m : Memory) (ws : List (Coord × Byte)) : Memory :=
  ws.foldl (fun m w => Memory.write p.blank m (w.1.key p) w.2) m

theorem Memory.writeAll_append (p : Params) (m : Memory) (ws ws' : List (Coord × Byte)) :
    writeAll p m (ws ++ ws') = writeAll p (writeAll p m ws) ws' := List.foldl_append

theorem Memory.writeAll_wf : ∀ {ws : List (Coord × Byte)} {m : Memory}, (∀ w ∈ ws, w.1.valid p) → wf p m →
    wf p (writeAll p m ws)
  | [], _, _, hm => hm
  | w :: ws, _, hv, hm => by
    obtain ⟨hw, hws⟩ := List.forall_mem_cons.1 hv
    exact writeAll_wf (ws := ws) hws (write_wf w.2 (Coord.key_lt hw) hm)

/-! ### Where the loader writes -/

theorem lineCells_valid {row : Nat} (hrow : row < p.height) : ∀ {l : List Byte} {j : Nat}, j + l.length ≤ p.width →
    ∀ w ∈ lineCells row j l, w.1.valid p
  | [], _, _ => List.forall_mem_nil _
  | b :: l, j, hj => by
    rw [List.length_cons] at hj
    exact List.forall_mem_cons.2 ⟨⟨hrow, by simp only; omega⟩, lineCells_valid hrow (by omega)⟩

theorem rowsCells_valid : ∀ {ls : List (List Byte)} {i : Nat}, i + ls.length ≤ p.height → (∀ l ∈ ls, l.length ≤ p.width) →
    ∀ w ∈ rowsCells i ls, w.1.valid p
  | [], _, _, _ => List.forall_mem_nil _
  | l :: ls, i, hi, hl => by
    rw [List.length_cons] at hi
    obtain ⟨hl, hls⟩ := List.forall_mem_cons.1 hl
    exact List.forall_mem_append.2 ⟨lineCells_valid (by omega) (by omega), rowsCells_valid (by omega) hls⟩

/-! ### What the cells hold then -/

/-- After a line is written from column j on, a cell holds the line's byte there, if there is one. -/
theorem read_writeAll_lineCells {row : Nat} (hrow : row < p.height) (hc : c.valid p) : ∀ {l : List Byte} {j : Nat}
    {m : Memory}, j + l.length ≤ p.width → Memory.wf p m →
    Memory.read p.blank (Memory.writeAll p m (lineCells row j l)) (c.key p) =
      (if c.row = row ∧ j ≤ c.col then l[c.col - j]? else none).getD (Memory.read p.blank m (c.key p))
  | [], j, m, _, _ => by simp [lineCells, Memory.writeAll]
  | b :: l, j, m, hj, hm => by
    rw [List.length_cons] at hj
    have hcell : Coord.valid p ⟨row, j⟩ := ⟨hrow, by simp only; omega⟩
    have hrest := read_writeAll_lineCells hrow hc (l := l) (j := j + 1) (by omega)
      (Memory.write_wf b (Coord.key_lt hcell) hm)
    refine hrest.trans ?_
    by_cases hat : c = ⟨row, j⟩
    · subst hat
      rw [if_neg (by simp), Memory.read_write_same b hm.1]
      simp
    · rw [Memory.read_write_other b fun hkey => hat (Coord.key_inj hc hcell hkey)]
      congr 1
      by_cases hin : c.row = row ∧ j + 1 ≤ c.col
      · rw [if_pos hin, if_pos ⟨hin.1, by omega⟩, show c.col - j = c.col - (j + 1) + 1 by omega, List.getElem?_cons_succ]
      · rw [if_neg hin, if_neg fun h => hin ⟨h.1, Nat.lt_of_le_of_ne h.2 fun hcol => hat ?_⟩]
        rw [hcol, ← h.1]

/-- After lines are written from row i on, a cell holds the byte of its line at its column, if there is one. -/
theorem read_writeAll_rowsCells (hc : c.valid p) : ∀ {ls : List (List Byte)} {i : Nat} {m : Memory},
    i + ls.length ≤ p.height → (∀ l ∈ ls, l.length ≤ p.width) → Memory.wf p m →
    Memory.read p.blank (Memory.writeAll p m (rowsCells i ls)) (c.key p) =
      (if i ≤ c.row then ls[c.row - i]?.bind (·[c.col]?) else none).getD (Memory.read p.blank m (c.key p))
  | [], i, m, _, _, _ => by simp [rowsCells, Memory.writeAll]
  | l :: ls, i, m, hi, hl, hm => by
    rw [List.length_cons] at hi
    obtain ⟨hl, hls⟩ := List.forall_mem_cons.1 hl
    have hrow : i < p.height := by omega
    have hline := lineCells_valid hrow (l := l) (j := 0) (by omega)
    rw [rowsCells, Memory.writeAll_append, read_writeAll_rowsCells hc (by omega) hls (Memory.writeAll_wf hline hm),
      read_writeAll_lineCells hrow hc (by omega) hm]
    rcases Nat.lt_trichotomy c.row i with hlt | heq | hgt
    · rw [if_neg (by omega), if_neg (by omega), if_neg (by omega)]
      rfl
    · rw [if_neg (by omega), if_pos ⟨heq, Nat.zero_le _⟩, if_pos (by omega), heq, Nat.sub_self, Nat.sub_zero]
      rfl
    · rw [if_pos (by omega), if_neg (by omega), if_pos (by omega), show c.row - i = c.row - (i + 1) + 1 by omega,
        List.getElem?_cons_succ]
      rfl

/-! ### The text -/

theorem textLines_length_le (p : Params) (text : List Byte) : 0 + (textLines p text).length ≤ p.height := by
  rw [textLines, Nat.zero_add]
  exact List.length_take_le _ _

theorem textLines_width_le (p : Params) (text : List Byte) : ∀ l ∈ textLines p text, l.length ≤ p.width := by
  intro l hl
  obtain ⟨l', -, rfl⟩ := List.mem_map.1 (List.mem_of_mem_take hl)
  exact List.length_take_le _ _

theorem loaderWrites_valid (p : Params) (text : List Byte) : ∀ w ∈ loaderWrites p text, w.1.valid p :=
  rowsCells_valid (textLines_length_le p text) (textLines_width_le p text)

/-- In the loaded grid a cell holds the byte of its line, without the CR at its end, and BLANK where there is none. -/
theorem read_loaded (hc : c.valid p) (text : List Byte) :
    Memory.read p.blank (Memory.writeAll p [] (loaderWrites p text)) (c.key p) =
      ((splitLines text)[c.row]?.bind fun l => (stripCr l)[c.col]?).getD p.blank := by
  rw [loaderWrites, read_writeAll_rowsCells hc (textLines_length_le p text) (textLines_width_le p text) (Memory.wf_nil p),
    if_pos (Nat.zero_le _), Nat.sub_zero, textLines, List.getElem?_take_of_lt hc.1, List.getElem?_map, Option.bind_map]
  simp only [Function.comp_def, List.getElem?_take_of_lt hc.2]
  rfl

end Sys2Proof.Machine
end

section
/-! PROOFS. The boot order (70_reset_and_hazards.md R265): wait out `rst_busy`, load, start. -/

namespace Sys2Proof.Machine

variable {s : State} {n : Nat} {rest : List Pins} {c : Coord} {b : Byte}

/-- The host's schedule replaced. -/
def State.withEdges (s : State) (l : List Pins) : State := s.withEnv { s.env with edges := l }

/-! ### One edge of each kind -/

theorem step_waits (hr : s.run = .idle) (hb : s.busy ≠ 0) (hl : s.env.edges = Pins.quiet :: rest) :
    step s = .next ({ s with busy := s.busy - 1 }.withEdges rest) := by
  have hp : s.pins = Pins.quiet := pins_of_scheduled hl
  rw [step_of_idle (by rw [hp]; rfl) hr, idleEdge_busy hb]
  simp [State.withEdges, Env.afterEdge, hl]

theorem step_loads (hr : s.run = .idle) (hb : s.busy = 0) (hc : c.valid s.par) (hl : s.env.edges = Pins.load c b :: rest) :
    step s = .next ((s.writeCell c b).withEdges rest) := by
  have hp : s.pins = Pins.load c b := pins_of_scheduled hl
  have hload : s.loadEdge = s.writeCell c b := by
    rw [State.loadEdge, hp]
    exact (if_pos rfl).trans (if_pos hc)
  rw [step_of_idle (by rw [hp]; rfl) hr, idleEdge_ready hb, hload, hp]
  simp [Pins.load, Pins.quiet, State.withEdges, State.withEnv, Env.afterEdge, hl, State.writeCell]

theorem step_starts (hr : s.run = .idle) (hb : s.busy = 0) (hl : s.env.edges = Pins.starting :: rest) :
    step s = .next ((s.withRun .run).withEdges rest) := by
  have hp : s.pins = Pins.starting := pins_of_scheduled hl
  have hload : s.loadEdge = s := loadEdge_of_ignored (.inl (by rw [hp]; rfl))
  rw [step_of_idle (by rw [hp]; rfl) hr, idleEdge_ready hb, hload, hp]
  simp [Pins.starting, State.withEdges, State.withEnv, State.withRun, Env.afterEdge, hl]

/-! ### The edges of each part of the boot order -/

theorem run_waits : ∀ {m : Nat} {s : State}, s.run = .idle → s.busy = m →
    s.env.edges = List.replicate m Pins.quiet ++ rest →
    Sys2Proof.core.run (m + n) s = Sys2Proof.core.run n ({ s with busy := 0 }.withEdges rest)
  | 0, s, _, hb, hl => by
    have hsame : { s with busy := 0 }.withEdges rest = s := by
      rw [← hb, show rest = s.env.edges from hl.symm]
      rfl
    rw [hsame, Nat.zero_add]
  | m + 1, s, hr, hb, hl => by
    rw [Nat.add_right_comm, core_run_next (step_waits hr (by omega) hl)]
    exact run_waits (m := m) hr (show s.busy - 1 = m by omega) rfl

theorem run_loads : ∀ {ws : List (Coord × Byte)} {s : State}, s.run = .idle → s.busy = 0 → (∀ w ∈ ws, w.1.valid s.par) →
    s.env.edges = ws.map (fun w => Pins.load w.1 w.2) ++ rest →
    Sys2Proof.core.run (ws.length + n) s =
      Sys2Proof.core.run n ({ s with grid := Memory.writeAll s.par s.grid ws }.withEdges rest)
  | [], s, _, _, _, hl => by
    have hsame : { s with grid := Memory.writeAll s.par s.grid [] }.withEdges rest = s := by
      rw [show rest = s.env.edges from hl.symm]
      rfl
    rw [hsame, List.length_nil, Nat.zero_add]
  | w :: ws, s, hr, hb, hv, hl => by
    obtain ⟨hw, hws⟩ := List.forall_mem_cons.1 hv
    rw [List.length_cons, Nat.add_right_comm, core_run_next (step_loads hr hb hw hl)]
    exact run_loads (ws := ws) hr hb hws rfl

/-! ### The boot -/

theorem bootEdges_length (p : Params) (text : List Byte) :
    (bootEdges p text).length = p.clearEdges + ((loaderWrites p text).length + 1) := by
  simp [bootEdges]

/-- The boot edges leave a core in RUN with the loader's writes in its grid. -/
theorem run_boot (p : Params) (e : Env) (text : List Byte) :
    Sys2Proof.core.run (bootEdges p text).length (State.boot p e text) =
      .next { State.resetWith p { e with edges := [] } with
        grid := Memory.writeAll p [] (loaderWrites p text), run := .run, busy := 0 } := by
  rw [bootEdges_length]
  refine (run_waits (s := State.boot p e text) rfl rfl (List.append_assoc _ _ _)).trans ?_
  refine (run_loads rfl rfl (loaderWrites_valid p text) rfl).trans ?_
  exact core_run_next (step_starts rfl rfl rfl)

/-- Settles O51: a text is its lines joined, the boot makes the loader's writes, and each cell is that of its line. -/
theorem bootLoadsTheProgramText : Obligations.BootLoadsTheProgramText := by
  refine ⟨fun text => ⟨splitLines text, splitLines_spec text⟩, fun p e lines hp hne hlf => ?_⟩
  have hsplit : splitLines (List.intercalate [0x0A] lines) = lines := splitLines_intercalate hne hlf
  refine ⟨_, run_boot p e _, Memory.writeAll_wf (loaderWrites_valid p _) (Memory.wf_nil p), fun c l hc hl => ?withCr,
    fun c l hc hl hno => ?withoutCr, fun c hc hl => ?noLine⟩
  case withCr => rw [read_loaded hc, hsplit, hl, Option.bind_some, show l ++ [0x0D] = l ++ [carriageReturn] from rfl,
    stripCr_append]
  case withoutCr => rw [read_loaded hc, hsplit, hl, Option.bind_some, stripCr_of_no_cr hno]
  case noLine => rw [read_loaded hc, hsplit, hl]; rfl

end Sys2Proof.Machine
end
